-- ==== Sys2Proof/Word.lean ====
section
/-! DEFINITION. The word types of the block (spec/00_scope.md R9: unsigned, bit 0 least significant). -/

namespace Sys2Proof

/-- One device register, one bus data byte, or one byte-wide command field (R60, R69, R101). -/
abbrev Byte := BitVec 8

/-- A 16-bit operand (hz, rpm, on, off: R101) or a response word (R231). -/
abbrev Word16 := BitVec 16

/-- A command word, delivered to the block whole (R74, R100). -/
abbrev CommandWord := BitVec 64

/-- A coil phase, 0 to 31 (R33). -/
abbrev Phase := BitVec 5

/-- A channel number, 0 to 15 (R62, NCHAN). -/
abbrev Channel := BitVec 4

end Sys2Proof
end

