-- ==== Sys2Proof/Machine/Flags.lean ====
section
/-! DEFINITION. The block has no flags (spec/10_state.md R32): a command's outcome is reported only in its response
word, defined here (spec/60_exceptions.md R230, R231). -/

namespace Sys2Proof.Machine

/-- The outcome of a command (R230). -/
inductive Status where
  | ok
  | busError
  | invalidFrequency
  | invalidAxis
  | invalidPin
  | invalidPinValue
  | illegalCommand
  | notInitialized
  | invalidSpeed
  deriving DecidableEq, Repr

/-- The status codes of R230. -/
def Status.code : Status → Byte
  | .ok => 0x00
  | .busError => 0x01
  | .invalidFrequency => 0x02
  | .invalidAxis => 0x03
  | .invalidPin => 0x04
  | .invalidPinValue => 0x05
  | .illegalCommand => 0x06
  | .notInitialized => 0x07
  | .invalidSpeed => 0x08

/-- The response word (R231): status code in `resp[15:8]`, result byte in `resp[7:0]`. -/
def responseWord (st : Status) (result : Byte) : Word16 := st.code ++ result

/-- `resp[15:8]` (R231). -/
def statusField (resp : Word16) : Byte := resp.extractLsb' 8 8

/-- `resp[7:0]` (R231). -/
def resultField (resp : Word16) : Byte := resp.extractLsb' 0 8

end Sys2Proof.Machine
end

