-- ==== Sys2Proof/Config.lean ====
section
/-! DEFINITION. What is fixed when the block is built (spec/10_state.md section 5) and the free values the spec
leaves open: the answers of the bus oracle (spec/20_memory.md R65) and the reference device's bytes before
the first write (R79). The fixed numbers and the parameters' defaults are in Machine/Params.lean. -/

namespace Sys2Proof

/-- A motor: the two legal values of the `axis` operand (R107, R247). -/
inductive Axis where
  | one
  | two
  deriving DecidableEq, Repr

/-- `PIN_MAP[a]` (R43): the six channels of a motor, in the rule's order. A channel is 4 bits wide, so an entry
outside 0 to 15 cannot be written down (R44). -/
structure PinMap where
  pwma : Channel
  ain2 : Channel
  ain1 : Channel
  pwmb : Channel
  bin2 : Channel
  bin1 : Channel
  deriving DecidableEq, Repr

/-- The construction parameters (R42 to R47). No command writes them. -/
structure Params where
  /-- DEV_ADDR, the device's 7-bit bus address (R42). -/
  devAddr : BitVec 7
  pinMap1 : PinMap
  pinMap2 : PinMap
  /-- STEPS_PER_REV of axis 1, 1 to 65535 (R45). -/
  stepsPerRev1 : Word16
  /-- STEPS_PER_REV of axis 2, 1 to 65535 (R45). -/
  stepsPerRev2 : Word16
  mode1Sleep : Byte
  mode1Restart : Byte
  mode1Allcall : Byte
  mode2Outdrv : Byte
  deriving DecidableEq, Repr

/-- One answer of the bus oracle (R65): failure, or success with a byte. A write does not look at the byte. -/
inductive BusAnswer where
  | fail
  | ok (b : Byte)
  deriving DecidableEq, Repr, Inhabited

/-- The free value of R65: what the bus answers to its `n`-th transaction. Nothing constrains it. -/
opaque Config.busAnswer : Nat → BusAnswer

/-- The free value of R79: the byte the reference device holds at an offset before the first write to it. -/
opaque Config.deviceByte : Nat → Byte

end Sys2Proof
end

