-- ==== Sys2Proof/Machine/Params.lean ====
section
/-! DEFINITION. The fixed numbers of the block and its construction parameters' defaults (spec/00_scope.md
section 4, spec/10_state.md section 5), and the construction check of R44. -/

namespace Sys2Proof

/-- MICROSTEPS (R8). -/
def microsteps : Nat := 8

/-- HALF = MICROSTEPS / 2 (spec/00_scope.md section 4). -/
def half : Nat := microsteps / 2

/-- NPHASE = MICROSTEPS * 4, the positions of the phase counter (R8). -/
def nphase : Nat := microsteps * 4

/-- FULL, the sentinel of a duty field (R91). -/
def fullDuty : Word16 := 4096

/-- OSC_HZ, the reference oscillator of the prescale formula (R132). -/
def oscHz : Nat := 25000000

/-- TICKS_PER_PERIOD (R132). -/
def ticksPerPeriod : Nat := 4096

/-- PRESCALE_MIN (R132). -/
def prescaleMin : Int := 3

/-- PRESCALE_MAX (R132). -/
def prescaleMax : Int := 255

/-- SETTLE_MS, the settle delay (R67, R135). -/
def settleMs : Nat := 5

/-- FREQ_DEFAULT, which the host passes to INIT at boot (R46, R263). -/
def freqDefault : Word16 := 1600

/-- PIN_MAP of axis 1, the table of R43. -/
def standardPins1 : PinMap := { pwma := 8, ain2 := 9, ain1 := 10, pwmb := 13, bin2 := 12, bin1 := 11 }

/-- PIN_MAP of axis 2, the table of R43. -/
def standardPins2 : PinMap := { pwma := 2, ain2 := 3, ain1 := 4, pwmb := 7, bin2 := 6, bin1 := 5 }

/-- The default configuration (R42, R43, R45, R47). -/
def Params.standard : Params where
  devAddr := 0x60
  pinMap1 := standardPins1
  pinMap2 := standardPins2
  stepsPerRev1 := 200
  stepsPerRev2 := 200
  mode1Sleep := 0x10
  mode1Restart := 0x80
  mode1Allcall := 0x01
  mode2Outdrv := 0x04

/-- `PIN_MAP[a]` (R43). -/
def Params.pinMap (p : Params) : Axis → PinMap
  | .one => p.pinMap1
  | .two => p.pinMap2

/-- `STEPS_PER_REV[a]` (R45). -/
def Params.stepsPerRev (p : Params) : Axis → Word16
  | .one => p.stepsPerRev1
  | .two => p.stepsPerRev2

/-- The configuration is one of this block: STEPS_PER_REV is 1 to 65535 (R45). The pin map's range (R44) is in its
type. -/
def Params.legal (p : Params) : Bool := p.stepsPerRev1 != 0 && p.stepsPerRev2 != 0

/-- A channel number offered at construction: refused outside 0 to 15 (R44). -/
def channelOf (n : Nat) : Option Channel := if n ≤ 15 then some (BitVec.ofNat 4 n) else none

/-- The six entries of `PIN_MAP[a]` offered at construction, in the order of R43; refused if one is no channel
number (R44). -/
def PinMap.construct (pwma ain2 ain1 pwmb bin2 bin1 : Nat) : Option PinMap :=
  match channelOf pwma, channelOf ain2, channelOf ain1, channelOf pwmb, channelOf bin2, channelOf bin1 with
  | some c0, some c1, some c2, some c3, some c4, some c5 => some ⟨c0, c1, c2, c3, c4, c5⟩
  | _, _, _, _, _, _ => none

/-- STEPS_PER_REV offered at construction: refused outside 1 to 65535 (R45). -/
def stepsPerRevOf (n : Nat) : Option Word16 := if 1 ≤ n ∧ n ≤ 65535 then some (BitVec.ofNat 16 n) else none

end Sys2Proof
end

