-- ==== Sys2Proof/Syntax.lean ====
section
/-! DEFINITION. The nine commands (spec/opcode_table.json, spec/30_encoding.md R103), operands as the formats of
R101 give them. -/

namespace Sys2Proof

/-- The source's Direction (R105). -/
inductive Direction where
  | forward
  | backward
  deriving DecidableEq, Repr

/-- The source's StepStyle (R106). -/
inductive Style where
  | single
  | double
  | interleave
  | microstep
  deriving DecidableEq, Repr

/-- A command with its operands. `axis`, `pin` and `val` are whole bytes, because every value of them is a legal
encoding (R107, R110). `ch`, `on` and `off` have the widths of R101; their ranges (R108, R109) are checked by
`Instr.wellFormed`. -/
inductive Instr where
  /-- INIT (R140). -/
  | init (hz : Word16)
  /-- SET_FREQ (R141). -/
  | setFreq (hz : Word16)
  /-- SET_CHANNEL (R142). -/
  | setChannel (ch : Byte) (on off : Word16)
  /-- SET_ALL (R143). -/
  | setAll (on off : Word16)
  /-- SET_PIN (R144). -/
  | setPin (pin val : Byte)
  /-- GET_STEPPER (R190). -/
  | getStepper (axis : Byte)
  /-- SET_SPEED (R191). -/
  | setSpeed (axis : Byte) (rpm : Word16)
  /-- ONE_STEP (R192). -/
  | oneStep (axis : Byte) (dir : Direction) (style : Style)
  /-- STEP (R193). -/
  | step (axis : Byte) (dir : Direction) (style : Style) (count : BitVec 32)
  deriving DecidableEq, Repr

end Sys2Proof
end

