-- ==== Sys2Proof/Machine/State.lean ====
section
/-! DEFINITION. Everything the spec gives the machine: the block's registers (spec/10_state.md section 7), its
in-command position (R48), the construction parameters, the bus with its device, and the host's side, with the
observation of a run (spec/70_reset_and_hazards.md R267). -/

namespace Sys2Proof.Machine

/-- One of the four registers of a channel block, in the order of R68 and R90. -/
inductive Part where
  | onL
  | onH
  | offL
  | offH
  deriving DecidableEq, Repr

/-- The device registers the block reaches: the table of R62 and no others (R73). -/
inductive DevReg where
  | mode1
  | mode2
  | led (ch : Channel) (part : Part)
  | allLed (part : Part)
  | prescale
  deriving DecidableEq, Repr

/-- The byte of a bus write: fixed when the command starts, or made from the MODE1 byte the command last read
(R94): `held clear set` is (that byte & ~clear) | set. -/
inductive ByteSource where
  | lit (b : Byte)
  | held (clear set : Byte)
  deriving DecidableEq, Repr

/-- One pseudocode line of a command: a bus primitive (R63, R64), a settle delay (R67), or a write of a register of
the block (spec/00_scope.md section 5). -/
inductive MicroOp where
  | write (reg : DevReg) (src : ByteSource)
  | readMode1
  | wait (ms : Nat)
  | setInitialized (v : Bool)
  | setFreq (hz : Word16) (p : Byte)
  | setRpm (a : Axis) (v : Word16)
  | setPhase (a : Axis) (v : Phase)
  deriving DecidableEq, Repr

/-- The iterations a STEP command has still to start (R48, R193). -/
structure StepLoop where
  axis : Axis
  dir : Direction
  style : Style
  left : Nat
  deriving DecidableEq, Repr

/-- The in-command position (R48): idle between commands; else the lines still to run, then the iterations still to
start, then the result byte of the OK response. -/
inductive Position where
  | idle
  | running (ops : List MicroOp) (loop : Option StepLoop) (result : Byte)
  deriving DecidableEq, Repr

/-- An event of the trace (R66). -/
inductive Event where
  /-- `W(reg, b)`: a successful write. -/
  | write (reg b : Byte)
  /-- `R(reg, b)`: a successful read returning `b`. -/
  | read (reg b : Byte)
  /-- `WAIT(ms)`: a settle delay (R67). -/
  | wait (ms : Nat)
  /-- `FW(reg, b)`: a failed write. -/
  | failedWrite (reg b : Byte)
  /-- `FR(reg)`: a failed read. -/
  | failedRead (reg : Byte)
  deriving DecidableEq, Repr

/-- How the bus oracle picks its next answer (R65): freely, by an answer given beforehand, or as the reference
device would (R79). -/
inductive BusChoice where
  | free
  | answer (a : BusAnswer)
  | reference
  deriving DecidableEq, Repr

/-- The bus oracle (R65) as plain data: its choices for the coming transactions, its choice after those, and the
number of transactions so far, which indexes the free answers. -/
structure Bus where
  script : List BusChoice
  rest : BusChoice
  count : Nat
  deriving DecidableEq, Repr

/-- Bytes at addresses, as (address, byte) pairs in rising order of address. -/
abbrev Memory := List Host.Cell

/-- The machine: the block, the bus with its device, and the host's side. -/
structure State where
  /-- `phase[1]` (R33). -/
  phase1 : Phase
  /-- `phase[2]` (R33). -/
  phase2 : Phase
  /-- `rpm[1]` (R34). -/
  rpm1 : Word16
  /-- `rpm[2]` (R34). -/
  rpm2 : Word16
  /-- R36. -/
  initialized : Bool
  /-- `freq_hz` (R37). -/
  freqHz : Word16
  /-- R37. -/
  prescale : Byte
  /-- The in-command position (R48). -/
  position : Position
  /-- The MODE1 byte the running command last read: `m` of R135, `old` of R136. -/
  held : Byte
  /-- The construction parameters; no step changes them (DESIGN CHOICE, log entry 2). -/
  params : Params
  /-- The bus oracle (R65; DESIGN CHOICE, log entry 3). -/
  bus : Bus
  /-- The reference device's register image (R79): the bytes written successfully so far (DESIGN CHOICE, log entry 4). -/
  img : Memory
  /-- The commands the host has still to issue, the next one first (R74, R246; DESIGN CHOICE, log entry 5). -/
  commands : List CommandWord
  /-- The trace of the run, oldest event first (R66; DESIGN CHOICE, log entry 8). -/
  trace : List Event
  /-- The response words returned so far, oldest first (R231; DESIGN CHOICE, log entry 8). -/
  responses : List Word16
  deriving DecidableEq, Repr

/-- No fault exists: an error ends its command with a response and never stops the block (R232, R241). -/
inductive Fault where
  deriving DecidableEq, Repr

/-- Why the model gives no step. -/
inductive Refusal where
  /-- An instruction without a meaning. No arm of `exec` answers it. Safe. -/
  | notModelled (mnemonic : String)
  /-- A command handed over while another is unfinished: the host has no such move (R246; 93 U15 `refuse`). Raised
  by every meaning; no `step` reaches it, because `step` hands a command over only when the block is idle. Safe. -/
  | commandOverlap
  deriving DecidableEq, Repr

/-- How a pseudocode line, or a run of them, ends: done, or at a transaction that failed, with its offset (R232,
R234). -/
inductive OpResult where
  | done (s : State)
  | failed (s : State) (reg : Byte)
  deriving DecidableEq, Repr

/-- The reset state of a block built with parameters `p` (R260, R261): registers 0, no command in progress,
no transaction issued, no command received. `held` is 0 (DESIGN CHOICE, log entry 1); the oracle is free (log
entry 3) and the device unknown (R262, log entry 4). -/
def State.resetWith (p : Params) : State where
  phase1 := 0
  phase2 := 0
  rpm1 := 0
  rpm2 := 0
  initialized := false
  freqHz := 0
  prescale := 0
  position := .idle
  held := 0
  params := p
  bus := { script := [], rest := .free, count := 0 }
  img := []
  commands := []
  trace := []
  responses := []

/-- The reset state with the default parameters. -/
def State.reset : State := State.resetWith Params.standard

end Sys2Proof.Machine
end

