-- ==== Sys2Proof/WellFormed.lean ====
section
/-! DEFINITION. Which commands a legal word can carry: the operand ranges that decoding itself checks
(spec/30_encoding.md R108, R109). -/

namespace Sys2Proof

/-- The duty range of R109: a tick 0 to 4095 or the sentinel 4096. -/
def dutyInRange (v : Word16) : Bool := v.toNat ≤ 4096

/-- The channel range of R108. -/
def channelInRange (ch : Byte) : Bool := ch.toNat ≤ 15

/-- The command is the decoding of some legal word (R112). -/
def Instr.wellFormed : Instr → Bool
  | .init _ => true
  | .setFreq _ => true
  | .setChannel ch on off => channelInRange ch && dutyInRange on && dutyInRange off
  | .setAll on off => dutyInRange on && dutyInRange off
  | .setPin _ _ => true
  | .getStepper _ => true
  | .setSpeed _ _ => true
  | .oneStep _ _ _ => true
  | .step _ _ _ _ => true

end Sys2Proof
end

