-- ==== Sys2Proof/Machine/Operands.lean ====
section
/-! DEFINITION. Operand forms and the arithmetic on them: axis and pin operands, duty bytes, the prescale, register
offsets, and the phase arithmetic with its pattern table. -/

namespace Sys2Proof.Machine

/-- The motor an `axis` operand names, for 1 and 2 (R107, R237). -/
def axisOf (b : Byte) : Option Axis :=
  if b = 1 then some .one else if b = 2 then some .two else none

/-- A `pin` or `ch` operand as a channel number: its low four bits, for 0 to 15 (R108, R110). -/
def channelOfByte (b : Byte) : Channel := b.setWidth 4

/-- `v[7:0]`, the `_L` byte of a duty value (R68). -/
def dutyLow (v : Word16) : Byte := v.extractLsb' 0 8

/-- `zext_8(v[12:8])`, the `_H` byte of a duty value (R68). -/
def dutyHigh (v : Word16) : Byte := (v.extractLsb' 8 5).setWidth 8

/-- The place of a register in its block of four (R90). -/
def Part.index : Part → Nat
  | .onL => 0
  | .onH => 1
  | .offL => 2
  | .offH => 3

/-- `chan_base(ch) = 0x06 + 4*ch` (R90). -/
def chanBase (ch : Channel) : Nat := 0x06 + 4 * ch.toNat

/-- The offsets of R62. -/
def DevReg.offset : DevReg → Byte
  | .mode1 => 0x00
  | .mode2 => 0x01
  | .led ch part => BitVec.ofNat 8 (chanBase ch + part.index)
  | .allLed part => BitVec.ofNat 8 (0xFA + part.index)
  | .prescale => 0xFE

/-- The integer expression of R132; at least -1 for `hz > 0`. -/
def prescaleInt (hz : Nat) : Int :=
  (((2 * oscHz + ticksPerPeriod * hz) / (2 * ticksPerPeriod * hz) : Nat) : Int) - 1

/-- `PrescaleOf(hz)` (R132): the prescale, or none where `hz` is invalid. -/
def prescaleOf (hz : Word16) : Option Byte :=
  if hz = 0 then none
  else if prescaleInt hz.toNat < prescaleMin ∨ prescaleMax < prescaleInt hz.toNat then none
  else some (BitVec.ofInt 8 (prescaleInt hz.toNat))

/-- A coil pattern (c0, c1, c2, c3), for (AIN2, BIN1, AIN1, BIN2) (R39, R40). -/
structure Pattern where
  c0 : Bool
  c1 : Bool
  c2 : Bool
  c3 : Bool
  deriving DecidableEq, Repr

/-- The pattern table `T` (R39). -/
def patternTable : Vector Pattern 8 := #v[
  ⟨true, false, false, false⟩,
  ⟨true, true, false, false⟩,
  ⟨false, true, false, false⟩,
  ⟨false, true, true, false⟩,
  ⟨false, false, true, false⟩,
  ⟨false, false, true, true⟩,
  ⟨false, false, false, true⟩,
  ⟨true, false, false, true⟩]

/-- `idx(p) = p // 4`, which is `p[4:2]` (R180). -/
def patternIndex (p : Phase) : BitVec 3 := p.extractLsb' 2 3

/-- `T[idx(p)]` (R181). -/
def patternOf (p : Phase) : Pattern := patternTable.get (patternIndex p).toFin

/-- `idx(p)` is odd. -/
def oddIndex (p : Phase) : Bool := (patternIndex p).getLsbD 0

/-- `delta(style, p)`, the table of R182. The SINGLE, INTERLEAVE and MICROSTEP rows are the spec's own (92 D6 to
D8). -/
def delta (style : Style) (p : Phase) : Nat :=
  match style with
  | .double => if oddIndex p then microsteps else half
  | .single => if oddIndex p then half else microsteps
  | .interleave => half
  | .microstep => 1

/-- The phase after one step (R183); the increment is chosen from the phase before the move. BACKWARD adds 32
before subtracting, so that the natural-number subtraction never cuts off. -/
def nextPhase (dir : Direction) (style : Style) (p : Phase) : Phase :=
  match dir with
  | .forward => BitVec.ofNat 5 ((p.toNat + delta style p) % nphase)
  | .backward => BitVec.ofNat 5 ((p.toNat + nphase - delta style p) % nphase)

end Sys2Proof.Machine
end

