-- ==== Sys2Proof/Machine/Ops.lean ====
section
/-! DEFINITION. The named operations: the device image, the bus oracle and the two bus primitives (spec/20_memory.md),
the per-axis registers, the response and the raising of an error (spec/60_exceptions.md R231, R232), and one
pseudocode line or a list of them. -/

namespace Sys2Proof.Machine

/-- What an address the memory does not list reads as: no value. The image's bytes before the first write are
unspecified (R79, R262). -/
def Memory.unlisted : Option Byte := none

/-- The byte at an address. -/
def Memory.read : Memory → Nat → Option Byte
  | [], _ => Memory.unlisted
  | (k, v) :: m, a => if a = k then some v else Memory.read m a

/-- Sets the byte at an address, keeping the addresses in rising order. -/
def Memory.write : Memory → Nat → Byte → Memory
  | [], a, b => [(a, b)]
  | (k, v) :: m, a, b =>
    if a < k then (a, b) :: (k, v) :: m
    else if a = k then (a, b) :: m
    else (k, v) :: Memory.write m a b

/-- Every address is at least `lo`, below 256 (R60), and the addresses strictly rise. -/
def Memory.wfFrom : Nat → Memory → Bool
  | _, [] => true
  | lo, (k, _) :: m => decide (lo ≤ k) && decide (k < 256) && Memory.wfFrom (k + 1) m

/-- The canonical form: addresses strictly rise and are register offsets (R60). An unlisted address has no value, so
no entry can equal what it reads as. -/
def Memory.wf (m : Memory) : Bool := Memory.wfFrom 0 m

/-- `phase[a]` (R33). -/
def State.phase (s : State) : Axis → Phase
  | .one => s.phase1
  | .two => s.phase2

/-- `phase[a] <- v`. -/
def State.setPhase (s : State) (a : Axis) (v : Phase) : State :=
  match a with
  | .one => { s with phase1 := v }
  | .two => { s with phase2 := v }

/-- `rpm[a]` (R34). -/
def State.rpm (s : State) : Axis → Word16
  | .one => s.rpm1
  | .two => s.rpm2

/-- `rpm[a] <- v`. -/
def State.setRpm (s : State) (a : Axis) (v : Word16) : State :=
  match a with
  | .one => { s with rpm1 := v }
  | .two => { s with rpm2 := v }

/-- The oracle's choice for the next transaction. -/
def Bus.choice (b : Bus) : BusChoice :=
  match b.script with
  | [] => b.rest
  | c :: _ => c

/-- The oracle after one transaction. -/
def Bus.advance (b : Bus) : Bus := { b with script := b.script.tail, count := b.count + 1 }

/-- The oracle's answer to the next transaction, to offset `reg` (R65). The reference device succeeds and returns
the byte last written, or, before the first write, an unspecified one (R79). -/
def State.busAnswer (s : State) (reg : Byte) : BusAnswer :=
  match s.bus.choice with
  | .free => Config.busAnswer s.bus.count
  | .answer a => a
  | .reference => .ok ((s.img.read reg.toNat).getD (Config.deviceByte reg.toNat))

/-- The state after one more transaction, recorded as `e` (R66). -/
def State.record (s : State) (e : Event) : State :=
  { s with bus := s.bus.advance, trace := s.trace ++ [e] }

/-- `BusWrite(reg, b)` (R63): one byte, all or nothing (R71). -/
def busWrite (reg : DevReg) (b : Byte) (s : State) : OpResult :=
  match s.busAnswer reg.offset with
  | .fail => .failed (s.record (.failedWrite reg.offset b)) reg.offset
  | .ok _ => .done { s.record (.write reg.offset b) with img := s.img.write reg.offset.toNat b }

/-- `BusRead(MODE1)` (R64): MODE1 is the only register the block reads (R62). -/
def busReadMode1 (s : State) : OpResult :=
  match s.busAnswer DevReg.mode1.offset with
  | .fail => .failed (s.record (.failedRead DevReg.mode1.offset)) DevReg.mode1.offset
  | .ok b => .done { s.record (.read DevReg.mode1.offset b) with held := b }

/-- `Wait(ms)` (R67): a mark in the trace, no transaction. -/
def waitMs (ms : Nat) (s : State) : State := { s with trace := s.trace ++ [.wait ms] }

/-- `respond(status, result)` (R231): returns the response word and ends the command. -/
def respond (st : Status) (result : Byte) (s : State) : State :=
  { s with position := .idle, responses := s.responses ++ [responseWord st result] }

/-- `raise E(info)` (R232): ends the command now with `E`'s response; what was written before stays. It saves nothing
and changes no mode (R243), and there is no return from it (R244). -/
def raise (e : Status) (info : Byte) (s : State) : State := respond e info s

/-- The event of reset in a run (R260): the block's registers take their reset values and any command in progress is
gone; no transaction is issued, and the device, the parameters and the host's side stay as they are. No step does
it (DESIGN CHOICE, log entry 9). -/
def State.resetBlock (s : State) : State :=
  { s with
    phase1 := 0, phase2 := 0, rpm1 := 0, rpm2 := 0, initialized := false, freqHz := 0, prescale := 0
    position := .idle, held := 0 }

/-- The byte of a write (R94), the complement taken within 8 bits (R10). -/
def ByteSource.eval (heldByte : Byte) : ByteSource → Byte
  | .lit b => b
  | .held clear set => (heldByte &&& ~~~clear) ||| set

/-- One pseudocode line. -/
def MicroOp.perform (op : MicroOp) (s : State) : OpResult :=
  match op with
  | .write reg src => busWrite reg (src.eval s.held) s
  | .readMode1 => busReadMode1 s
  | .wait ms => .done (waitMs ms s)
  | .setInitialized v => .done { s with initialized := v }
  | .setFreq hz p => .done { s with freqHz := hz, prescale := p }
  | .setRpm a v => .done (s.setRpm a v)
  | .setPhase a v => .done (s.setPhase a v)

/-- Goes on with `f` unless a transaction failed (R232: no later line runs). -/
def OpResult.andThen (r : OpResult) (f : State → OpResult) : OpResult :=
  match r with
  | .done s => f s
  | .failed s reg => .failed s reg

/-- Pseudocode lines in the order written (R12), to the first transaction that fails. -/
def runOps : List MicroOp → State → OpResult
  | [], s => .done s
  | op :: ops, s => (op.perform s).andThen (runOps ops)

end Sys2Proof.Machine
end

