-- ==== Sys2Proof/Machine/Sequences.lean ====
section
/-! DEFINITION. The shared sequences, line by line: the packer's (spec/40_pwm_packer.md section 1) and the sequencer's
coil write and step (spec/41_stepper_sequencer.md section 1). -/

namespace Sys2Proof.Machine

/-- A write of a byte known when the command starts. -/
def writeByte (reg : DevReg) (b : Byte) : MicroOp := .write reg (.lit b)

/-- `WriteChannel(ch, on, off)` (R130). -/
def writeChannel (ch : Channel) (on off : Word16) : List MicroOp := [
  writeByte (.led ch .onL) (dutyLow on),
  writeByte (.led ch .onH) (dutyHigh on),
  writeByte (.led ch .offL) (dutyLow off),
  writeByte (.led ch .offH) (dutyHigh off)]

/-- `WriteAll(on, off)` (R131). -/
def writeAll (on off : Word16) : List MicroOp := [
  writeByte (.allLed .onL) (dutyLow on),
  writeByte (.allLed .onH) (dutyHigh on),
  writeByte (.allLed .offL) (dutyLow off),
  writeByte (.allLed .offH) (dutyHigh off)]

/-- `WritePin(pin, v)` (R134): full-on or full-off (R92). -/
def writePin (pin : Channel) (v : Bool) : List MicroOp :=
  if v then writeChannel pin fullDuty 0 else writeChannel pin 0 fullDuty

/-- `InitSeq()` (R135). -/
def initSeq (p : Params) : List MicroOp :=
  writeAll 0 0 ++ [
  writeByte .mode2 p.mode2Outdrv,
  writeByte .mode1 p.mode1Allcall,
  .wait settleMs,
  .readMode1,
  .write .mode1 (.held p.mode1Sleep 0),
  .wait settleMs]

/-- `FreqSeq(hz, p)` (R136); `freq_hz` and `prescale` are written when the PRESCALE write has completed (R37). -/
def freqSeq (p : Params) (hz : Word16) (pre : Byte) : List MicroOp := [
  .readMode1,
  .write .mode1 (.held p.mode1Restart p.mode1Sleep),
  writeByte .prescale pre,
  .setFreq hz pre,
  .write .mode1 (.held 0 0),
  .wait settleMs,
  .write .mode1 (.held 0 p.mode1Restart)]

/-- `CoilWrite(a, n)` (R184): AIN2, BIN1, AIN1, BIN2, one pin at a time. -/
def coilWrite (pins : PinMap) (n : Phase) : List MicroOp :=
  writePin pins.ain2 (patternOf n).c0 ++ writePin pins.bin1 (patternOf n).c1 ++
  writePin pins.ain1 (patternOf n).c2 ++ writePin pins.bin2 (patternOf n).c3

/-- The lines of `OneStepBody` that move axis `a` to phase `n` (R186): the phase first, then the pins. -/
def stepTo (p : Params) (a : Axis) (n : Phase) : List MicroOp :=
  .setPhase a n :: coilWrite (p.pinMap a) n

/-- The lines of `OneStepBody(a, dir, style)` (R186) in state `s`. -/
def oneStepOps (a : Axis) (dir : Direction) (style : Style) (s : State) : List MicroOp :=
  stepTo s.params a (nextPhase dir style (s.phase a))

end Sys2Proof.Machine
end

