-- ==== Sys2Proof/Machine/Run.lean ====
section
/-! DEFINITION. Running a command: the checks' verdict, the whole command to its response, and the same command one
line at a time (spec/10_state.md R48, spec/60_exceptions.md R232, R246). -/

namespace Sys2Proof.Machine

/-- `OneStepBody(a, dir, style)` (R186), run whole. -/
def oneStepBody (a : Axis) (dir : Direction) (style : Style) (s : State) : OpResult :=
  runOps (oneStepOps a dir style s) s

/-- `repeat n times: OneStepBody(a, dir, style)` (R193). -/
def repeatSteps (a : Axis) (dir : Direction) (style : Style) : Nat → State → OpResult
  | 0, s => .done s
  | n + 1, s => (oneStepBody a dir style s).andThen (repeatSteps a dir style n)

/-- The iterations a command has still to start: none, or STEP's (R48). -/
def runLoop (loop : Option StepLoop) (s : State) : OpResult :=
  match loop with
  | none => .done s
  | some l => repeatSteps l.axis l.dir l.style l.left s

/-- The end of a command: OK with its result byte, or BusError with the failing offset (R231, R234). -/
def closeCommand (result : Byte) : OpResult → State
  | .done s => respond .ok result s
  | .failed s reg => raise .busError reg s

/-- Runs the command in progress to its response (R31, R246). -/
def finish (s : State) : State :=
  match s.position with
  | .idle => s
  | .running ops loop result => closeCommand result ((runOps ops s).andThen (runLoop loop))

/-- Performs the next line of the command in progress: at most one bus transaction (R12, R71). With no line left it
starts STEP's next iteration, or responds. -/
def tick (s : State) : State :=
  match s.position with
  | .idle => s
  | .running (op :: ops) loop result =>
    match op.perform { s with position := .running ops loop result } with
    | .done s' => s'
    | .failed s' reg => raise .busError reg s'
  | .running [] none result => respond .ok result s
  | .running [] (some l) result =>
    match l.left with
    | 0 => respond .ok result s
    | n + 1 =>
      { s with position := .running (oneStepOps l.axis l.dir l.style s) (some { l with left := n }) result }

/-- What a command's checks come to (R233): the first that fails, or what to run. -/
inductive Verdict where
  | raise (e : Status) (info : Byte)
  | run (ops : List MicroOp) (loop : Option StepLoop) (result : Byte)
  deriving DecidableEq, Repr

/-- The check of `ch`, `on` and `off`, which decoding makes too (R233 step 1, R108, R109, R142, R143). -/
def needLegal (legal : Bool) (v : Verdict) : Verdict :=
  match legal with
  | true => v
  | false => .raise .illegalCommand 0

/-- The check of every opcode but INIT that decoding has passed (R233 step 2, R236). -/
def needInit (s : State) (v : Verdict) : Verdict :=
  match s.initialized with
  | true => v
  | false => .raise .notInitialized 0

/-- The check of an `axis` operand (R233 step 3, R237). -/
def needAxis (axis : Byte) (k : Axis → Verdict) : Verdict :=
  match axisOf axis with
  | none => .raise .invalidAxis axis
  | some a => k a

/-- The check of an `hz` operand (R233 step 5, R239). -/
def needPrescale (hz : Word16) (k : Byte → Verdict) : Verdict :=
  match prescaleOf hz with
  | none => .raise .invalidFrequency 0
  | some p => k p

/-- Carries out the verdict in an idle block: an error at once, before any transaction (R240), or the command to its
response. -/
def carryOut (v : Verdict) (s : State) : State :=
  match v with
  | .raise e info => raise e info s
  | .run ops loop result => finish { s with position := .running ops loop result }

/-- Runs a command with this verdict; the block takes none while one is unfinished (R246). -/
def command (v : Verdict) (s : State) : Host.Outcome State Fault Refusal :=
  match s.position with
  | .idle => .next (carryOut v s)
  | .running _ _ _ => .refused .commandOverlap

end Sys2Proof.Machine
end

