-- ==== Sys2Proof/Machine/Packer.lean ====
section
/-! DEFINITION. The packer's commands (spec/40_pwm_packer.md section 2). -/

namespace Sys2Proof.Machine

/-- INIT (R140). It makes no NotInitialized check; `initialized` is 0 while it runs. -/
def execInit (hz : Word16) (s : State) : Host.Outcome State Fault Refusal :=
  command (needPrescale hz fun p =>
    .run (.setInitialized false :: initSeq s.params ++ freqSeq s.params hz p ++ [.setInitialized true]) none 0) s

/-- SET_FREQ (R141). -/
def execSetFreq (hz : Word16) (s : State) : Host.Outcome State Fault Refusal :=
  command (needInit s (needPrescale hz fun p => .run (freqSeq s.params hz p) none 0)) s

/-- SET_CHANNEL (R142). -/
def execSetChannel (ch : Byte) (on off : Word16) (s : State) : Host.Outcome State Fault Refusal :=
  command (needLegal (channelInRange ch && dutyInRange on && dutyInRange off)
    (needInit s (.run (writeChannel (channelOfByte ch) on off) none 0))) s

/-- SET_ALL (R143). -/
def execSetAll (on off : Word16) (s : State) : Host.Outcome State Fault Refusal :=
  command (needLegal (dutyInRange on && dutyInRange off) (needInit s (.run (writeAll on off) none 0))) s

/-- SET_PIN (R144): the pin is checked before the value. -/
def execSetPin (pin val : Byte) (s : State) : Host.Outcome State Fault Refusal :=
  command (needInit s (
    if 15 < pin.toNat then .raise .invalidPin pin
    else if 1 < val.toNat then .raise .invalidPinValue val
    else .run (writePin (channelOfByte pin) (val == 1)) none 0)) s

end Sys2Proof.Machine
end

