-- ==== Sys2Proof/Machine/Sequencer.lean ====
section
/-! DEFINITION. The sequencer's commands (spec/41_stepper_sequencer.md section 2). -/

namespace Sys2Proof.Machine

/-- GET_STEPPER (R190): the check alone. -/
def execGetStepper (axis : Byte) (s : State) : Host.Outcome State Fault Refusal :=
  command (needInit s (needAxis axis fun _ => .run [] none 0)) s

/-- SET_SPEED (R191): the speed, then PWMA, then PWMB. -/
def execSetSpeed (axis : Byte) (rpm : Word16) (s : State) : Host.Outcome State Fault Refusal :=
  command (needInit s (needAxis axis fun a =>
    if rpm = 0 then .raise .invalidSpeed 0
    else .run (.setRpm a rpm :: writePin (s.params.pinMap a).pwma true ++ writePin (s.params.pinMap a).pwmb true)
      none 0)) s

/-- ONE_STEP (R192): the result byte is the new phase. -/
def execOneStep (axis : Byte) (dir : Direction) (style : Style) (s : State) : Host.Outcome State Fault Refusal :=
  command (needInit s (needAxis axis fun a =>
    .run (oneStepOps a dir style s) none ((nextPhase dir style (s.phase a)).setWidth 8))) s

/-- STEP (R193): `count` times OneStepBody, with no delay between. -/
def execStep (axis : Byte) (dir : Direction) (style : Style) (count : BitVec 32) (s : State) :
    Host.Outcome State Fault Refusal :=
  command (needInit s (needAxis axis fun a =>
    .run [] (some { axis := a, dir := dir, style := style, left := count.toNat }) 0)) s

end Sys2Proof.Machine
end

