-- ==== Sys2Proof/Machine/Dispatch.lean ====
section
/-! DEFINITION. The meaning of each command. -/

namespace Sys2Proof.Machine

def exec (i : Instr) (s : State) : Host.Outcome State Fault Refusal :=
  match i with
  | .init hz => Sys2Proof.Machine.execInit hz s
  | .setFreq hz => Sys2Proof.Machine.execSetFreq hz s
  | .setChannel ch on off => Sys2Proof.Machine.execSetChannel ch on off s
  | .setAll on off => Sys2Proof.Machine.execSetAll on off s
  | .setPin pin val => Sys2Proof.Machine.execSetPin pin val s
  | .getStepper axis => Sys2Proof.Machine.execGetStepper axis s
  | .setSpeed axis rpm => Sys2Proof.Machine.execSetSpeed axis rpm s
  | .oneStep axis dir style => Sys2Proof.Machine.execOneStep axis dir style s
  | .step axis dir style count => Sys2Proof.Machine.execStep axis dir style count s

end Sys2Proof.Machine
end

