-- ==== Sys2Proof/Decode.lean ====
section
/-! DEFINITION. Decoding a command word (spec/30_encoding.md R100 to R113), total, each illegal word refused by
name; then the encoder of R114, and the opcode table's rows (spec/opcode_table.json). -/

namespace Sys2Proof

/-- Why a word is illegal (R112). Each raises IllegalCommand (R235); which name a word illegal for several reasons gets
is a DESIGN CHOICE (log entry 10). -/
inductive DecodeError where
  /-- Opcode 0x00 or 0x0A to 0xFF (R104). -/
  | undefinedOpcode
  /-- A reserved bit of the opcode's format is set (R102). -/
  | reservedBits
  /-- A `dir` code other than 1 and 2 (R105). -/
  | badDirection
  /-- A `style` code other than 1 to 4 (R106). -/
  | badStyle
  /-- SET_CHANNEL with `ch` above 15 (R108). -/
  | badChannel
  /-- An `on` or `off` above 4096 (R109). -/
  | badDuty
  deriving DecidableEq, Repr

/-- The outcome of decoding: one command, or illegal (R112). -/
inductive Decoded where
  | instr (i : Instr)
  | illegal (why : DecodeError)
  deriving DecidableEq, Repr

/-- `w[63:56]`, the opcode (R100). -/
def opcodeOf (w : CommandWord) : Byte := w.extractLsb' 56 8

/-- `w[55:48]`, the axis field (R101). -/
def axisField (w : CommandWord) : Byte := w.extractLsb' 48 8

/-- `w[47:40]`, the dir field (R101). -/
def dirField (w : CommandWord) : Byte := w.extractLsb' 40 8

/-- `w[39:32]`, the style field, and SET_CHANNEL's ch (R101). -/
def styleField (w : CommandWord) : Byte := w.extractLsb' 32 8

/-- `w[31:16]`, the on field (R101). -/
def onField (w : CommandWord) : Word16 := w.extractLsb' 16 16

/-- `w[15:0]`, the hz, off and rpm field (R101). -/
def low16Field (w : CommandWord) : Word16 := w.extractLsb' 0 16

/-- The direction codes of R105. -/
def Direction.ofCode (b : Byte) : Option Direction :=
  if b = 1 then some .forward else if b = 2 then some .backward else none

/-- The direction's code (R105). -/
def Direction.code : Direction → Byte
  | .forward => 1
  | .backward => 2

/-- The style codes of R106. -/
def Style.ofCode (b : Byte) : Option Style :=
  if b = 1 then some .single else if b = 2 then some .double else
  if b = 3 then some .interleave else if b = 4 then some .microstep else none

/-- The style's code (R106). -/
def Style.code : Style → Byte
  | .single => 1
  | .double => 2
  | .interleave => 3
  | .microstep => 4

/-- `i` if the reserved field is 0, else illegal (R102). -/
def unlessReserved {n : Nat} (reserved : BitVec n) (d : Decoded) : Decoded :=
  if reserved = 0 then d else .illegal .reservedBits

/-- Reads the dir and style fields of formats M1 and M (R105, R106). -/
def withDirStyle (w : CommandWord) (k : Direction → Style → Instr) : Decoded :=
  match Direction.ofCode (dirField w) with
  | none => .illegal .badDirection
  | some d =>
    match Style.ofCode (styleField w) with
    | none => .illegal .badStyle
    | some st => .instr (k d st)

/-- Format C (R101) with the ranges of R108 and R109. -/
def decodeSetChannel (w : CommandWord) : Decoded :=
  if channelInRange (styleField w) then
    if dutyInRange (onField w) && dutyInRange (low16Field w) then
      .instr (.setChannel (styleField w) (onField w) (low16Field w))
    else .illegal .badDuty
  else .illegal .badChannel

/-- Format A (R101) with the ranges of R109. -/
def decodeSetAll (w : CommandWord) : Decoded :=
  if dutyInRange (onField w) && dutyInRange (low16Field w) then .instr (.setAll (onField w) (low16Field w))
  else .illegal .badDuty

/-- The command of a word, or why it is illegal: the opcode map and reserved bits of R103, the fields of R101. -/
def decode (w : CommandWord) : Decoded :=
  match (opcodeOf w).toNat with
  | 0x01 => unlessReserved (w.extractLsb' 16 40) (.instr (.init (low16Field w)))
  | 0x02 => unlessReserved (w.extractLsb' 16 40) (.instr (.setFreq (low16Field w)))
  | 0x03 => unlessReserved (w.extractLsb' 40 16) (decodeSetChannel w)
  | 0x04 => unlessReserved (w.extractLsb' 32 24) (decodeSetAll w)
  | 0x05 => unlessReserved (w.extractLsb' 16 40) (.instr (.setPin (w.extractLsb' 8 8) (w.extractLsb' 0 8)))
  | 0x06 => unlessReserved (w.extractLsb' 0 48) (.instr (.getStepper (axisField w)))
  | 0x07 => unlessReserved (w.extractLsb' 16 32) (.instr (.setSpeed (axisField w) (low16Field w)))
  | 0x08 => unlessReserved (w.extractLsb' 0 32) (withDirStyle w fun d st => .oneStep (axisField w) d st)
  | 0x09 => withDirStyle w fun d st => .step (axisField w) d st (w.extractLsb' 0 32)
  | _ => .illegal .undefinedOpcode

/-- A word given as a number with bit 0 least significant: a command is one 64-bit word with no byte order
(R74, R113), so the number is the word, its bits above `nbits` zero. -/
def wordOfBits (nbits w : Nat) : CommandWord := BitVec.ofNat 64 (w % 2 ^ nbits)

/-- The command of the word whose bits are `w`, numbered as the opcode table numbers them; none where decoding
refuses the word, and none for more than the 64 bits a command has (R113). -/
def decodeTableWord (nbits w : Nat) : Option Instr :=
  if nbits ≤ 64 then
    match decode (wordOfBits nbits w) with
    | .instr i => some i
    | .illegal _ => none
  else none

/-- The opcode of a command (R103). -/
def Instr.opcode : Instr → Byte
  | .init _ => 0x01
  | .setFreq _ => 0x02
  | .setChannel _ _ _ => 0x03
  | .setAll _ _ => 0x04
  | .setPin _ _ => 0x05
  | .getStepper _ => 0x06
  | .setSpeed _ _ => 0x07
  | .oneStep _ _ _ => 0x08
  | .step _ _ _ _ => 0x09

/-- The word of a command: the "word" column of R114. -/
def encode : Instr → CommandWord
  | .init hz => 0x01#8 ++ 0#40 ++ hz
  | .setFreq hz => 0x02#8 ++ 0#40 ++ hz
  | .setChannel ch on off => 0x03#8 ++ 0#16 ++ ch ++ on ++ off
  | .setAll on off => 0x04#8 ++ 0#24 ++ on ++ off
  | .setPin pin val => 0x05#8 ++ 0#40 ++ pin ++ val
  | .getStepper axis => 0x06#8 ++ axis ++ 0#48
  | .setSpeed axis rpm => 0x07#8 ++ axis ++ 0#32 ++ rpm
  | .oneStep axis dir style => 0x08#8 ++ axis ++ dir.code ++ style.code ++ 0#32
  | .step axis dir style count => 0x09#8 ++ axis ++ dir.code ++ style.code ++ count

/-- A row of the opcode table: the bits under `mask` must be those of `pattern`. -/
structure OpcodeRow where
  mnemonic : String
  pattern : CommandWord
  mask : CommandWord
  deriving DecidableEq, Repr

/-- spec/opcode_table.json, row by row. -/
def opcodeTable : List OpcodeRow := [
  ⟨"INIT", 0x0100000000000000, 0xFFFFFFFFFFFF0000⟩,
  ⟨"SET_FREQ", 0x0200000000000000, 0xFFFFFFFFFFFF0000⟩,
  ⟨"SET_CHANNEL", 0x0300000000000000, 0xFFFFFF0000000000⟩,
  ⟨"SET_ALL", 0x0400000000000000, 0xFFFFFFFF00000000⟩,
  ⟨"SET_PIN", 0x0500000000000000, 0xFFFFFFFFFFFF0000⟩,
  ⟨"GET_STEPPER", 0x0600000000000000, 0xFF00FFFFFFFFFFFF⟩,
  ⟨"SET_SPEED", 0x0700000000000000, 0xFF00FFFFFFFF0000⟩,
  ⟨"ONE_STEP", 0x0800000000000000, 0xFF000000FFFFFFFF⟩,
  ⟨"STEP", 0x0900000000000000, 0xFF00000000000000⟩]

/-- The word lies in the row. -/
def OpcodeRow.covers (r : OpcodeRow) (w : CommandWord) : Bool := w &&& r.mask == r.pattern

/-- The table's mnemonic of a command. -/
def Instr.mnemonic : Instr → String
  | .init _ => "INIT"
  | .setFreq _ => "SET_FREQ"
  | .setChannel _ _ _ => "SET_CHANNEL"
  | .setAll _ _ => "SET_ALL"
  | .setPin _ _ => "SET_PIN"
  | .getStepper _ => "GET_STEPPER"
  | .setSpeed _ _ => "SET_SPEED"
  | .oneStep _ _ _ => "ONE_STEP"
  | .step _ _ _ _ => "STEP"

end Sys2Proof
end

