-- ==== Sys2Proof/Machine/Fetch.lean ====
section
/-! DEFINITION. Taking the host's next command (spec/20_memory.md R74, spec/60_exceptions.md R246) and what an illegal
word does (R235). The block fetches nothing itself (spec/10_state.md R31). -/

namespace Sys2Proof.Machine

/-- The host's next command word, and the state with it taken; none while the host has none (R261). -/
def takeCommand (s : State) : Option (CommandWord × State) :=
  match s.commands with
  | [] => none
  | w :: rest => some (w, { s with commands := rest })

/-- An illegal word raises IllegalCommand, with no transaction and no state change (R102, R235, R240). -/
def illegalWord (s : State) : State := raise .illegalCommand 0 s

/-- The host issues `w` next, to an idle block. -/
def issueNext (w : CommandWord) (s : State) : State :=
  { s with position := .idle, commands := w :: s.commands }

end Sys2Proof.Machine
end

