-- ==== Sys2Proof/Machine/Step.lean ====
section
/-! DEFINITION. One step: the command in progress run to its response, or the host's next command taken and run whole
(spec/10_state.md R31, spec/60_exceptions.md R246). -/

namespace Sys2Proof.Machine

/-- One step. A command in progress is finished first (R246); an idle block takes the host's next command, or waits
for it (R261). That a step is a whole command is a DESIGN CHOICE (log entry 6). -/
def step (s : State) : Host.Outcome State Fault Refusal :=
  match s.position with
  | .running _ _ _ => .next (finish s)
  | .idle =>
    match takeCommand s with
    | none => .next s
    | some (w, s') =>
      match decode w with
      | .instr i => exec i s'
      | .illegal _ => .next (illegalWord s')

/-- The state in which the host's next command is the word whose bits are `w` (log entry 5). -/
def State.withFetchWord (s : State) (nbits w : Nat) : State := issueNext (wordOfBits nbits w) s

end Sys2Proof.Machine
end

