-- ==== Sys2Proof/Machine/Assembler.lean ====
section
/-! DEFINITION. The assembler (spec/30_encoding.md R114, R115): one line of text to one command word. -/

namespace Sys2Proof.Machine

/-- A decimal or hexadecimal digit. -/
def digitValue (c : Char) : Option Nat :=
  if '0' ≤ c ∧ c ≤ '9' then some (c.toNat - '0'.toNat)
  else if 'a' ≤ c ∧ c ≤ 'f' then some (c.toNat - 'a'.toNat + 10)
  else if 'A' ≤ c ∧ c ≤ 'F' then some (c.toNat - 'A'.toNat + 10)
  else none

/-- The digits of a number, each below the base. -/
def digitsValue (base : Nat) : Nat → List Char → Option Nat
  | acc, [] => some acc
  | acc, c :: cs =>
    match digitValue c with
    | none => none
    | some d => if d < base then digitsValue base (acc * base + d) cs else none

/-- A number: decimal, or hexadecimal after `0x` (R114). -/
def numberValue : List Char → Option Nat
  | [] => none
  | '0' :: 'x' :: c :: cs => digitsValue 16 0 (c :: cs)
  | c :: cs => digitsValue 10 0 (c :: cs)

/-- A number operand as an `n`-bit field: the low bits, as `hz[15:0]` says (R114, R9). -/
def fieldValue (n : Nat) (cs : List Char) : Option (BitVec n) := (numberValue cs).map (BitVec.ofNat n)

/-- A direction: its name (R114), or a code written as a number (DEDUCED from 95_test_vectors.md P2 line 10, log
entry 7). -/
def dirValue (cs : List Char) : Option Byte :=
  if cs = "forward".toList then some Direction.forward.code
  else if cs = "backward".toList then some Direction.backward.code
  else fieldValue 8 cs

/-- A style: its name (R114), or a code written as a number (log entry 7). -/
def styleValue (cs : List Char) : Option Byte :=
  if cs = "single".toList then some Style.single.code
  else if cs = "double".toList then some Style.double.code
  else if cs = "interleave".toList then some Style.interleave.code
  else if cs = "microstep".toList then some Style.microstep.code
  else fieldValue 8 cs

/-- Without the spaces at either end. -/
def trimSpaces (cs : List Char) : List Char :=
  ((cs.dropWhile (· == ' ')).reverse.dropWhile (· == ' ')).reverse

/-- The pieces between commas. -/
def splitCommas : List Char → List (List Char)
  | [] => [[]]
  | c :: cs =>
    if c = ',' then [] :: splitCommas cs
    else
      match splitCommas cs with
      | [] => [[c]]
      | p :: ps => (c :: p) :: ps

/-- The word of a mnemonic with its operands: the table of R114 and the pseudo-instructions of R115. -/
def assembleParts (mnemonic : List Char) (operands : List (List Char)) : Option CommandWord :=
  match operands with
  | [x] =>
    if mnemonic = "init".toList then (fieldValue 16 x).map fun hz => 0x01#8 ++ 0#40 ++ hz
    else if mnemonic = "set_freq".toList then (fieldValue 16 x).map fun hz => 0x02#8 ++ 0#40 ++ hz
    else if mnemonic = "get_stepper".toList then (fieldValue 8 x).map fun axis => 0x06#8 ++ axis ++ 0#48
    else if mnemonic = "full_on".toList then
      (fieldValue 8 x).map fun ch => 0x03#8 ++ 0#16 ++ ch ++ 4096#16 ++ 0#16
    else if mnemonic = "full_off".toList then
      (fieldValue 8 x).map fun ch => 0x03#8 ++ 0#16 ++ ch ++ 0#16 ++ 4096#16
    else none
  | [x, y] =>
    if mnemonic = "set_all".toList then
      (fieldValue 16 x).bind fun on => (fieldValue 16 y).map fun off => 0x04#8 ++ 0#24 ++ on ++ off
    else if mnemonic = "set_pin".toList then
      (fieldValue 8 x).bind fun pin => (fieldValue 8 y).map fun val => 0x05#8 ++ 0#40 ++ pin ++ val
    else if mnemonic = "set_speed".toList then
      (fieldValue 8 x).bind fun axis => (fieldValue 16 y).map fun rpm => 0x07#8 ++ axis ++ 0#32 ++ rpm
    else none
  | [x, y, z] =>
    if mnemonic = "set_channel".toList then
      (fieldValue 8 x).bind fun ch => (fieldValue 16 y).bind fun on => (fieldValue 16 z).map fun off =>
        0x03#8 ++ 0#16 ++ ch ++ on ++ off
    else if mnemonic = "one_step".toList then
      (fieldValue 8 x).bind fun axis => (dirValue y).bind fun dir => (styleValue z).map fun style =>
        0x08#8 ++ axis ++ dir ++ style ++ 0#32
    else none
  | [x, y, z, t] =>
    if mnemonic = "step".toList then
      (fieldValue 8 x).bind fun axis => (fieldValue 32 y).bind fun count => (dirValue z).bind fun dir =>
        (styleValue t).map fun style => 0x09#8 ++ axis ++ dir ++ style ++ count
    else none
  | _ => none

/-- One line: the mnemonic, a space, and the operands separated by commas (R114). None where the line is no
command. -/
def assembleChars (line : List Char) : Option CommandWord :=
  assembleParts (line.takeWhile (· != ' ')) ((splitCommas (line.dropWhile (· != ' '))).map trimSpaces)

/-- One line of text. -/
def assemble (line : String) : Option CommandWord := assembleChars line.toList

end Sys2Proof.Machine
end

