-- ==== Sys2Proof/Machine/Observe.lean ====
section
/-! DEFINITION. What may be read off a state (spec/10_state.md R35, R50; spec/20_memory.md R60; spec/40_pwm_packer.md
R138; spec/70_reset_and_hazards.md R267). No step reads any of it. -/

namespace Sys2Proof.Machine

/-- The observable state between commands (R50). -/
structure Observation where
  phase1 : Phase
  phase2 : Phase
  rpm1 : Word16
  rpm2 : Word16
  initialized : Bool
  freqHz : Word16
  prescale : Byte
  deriving DecidableEq, Repr

/-- The tuple of R50. -/
def State.observe (s : State) : Observation where
  phase1 := s.phase1
  phase2 := s.phase2
  rpm1 := s.rpm1
  rpm2 := s.rpm2
  initialized := s.initialized
  freqHz := s.freqHz
  prescale := s.prescale

/-- `secondsPerStep[a]` (R35), exact (R11); no value while `rpm[a] = 0`. -/
def State.secondsPerStep (s : State) (a : Axis) : Option Rat :=
  if s.rpm a = 0 then none
  else some (60 / ((s.params.stepsPerRev a).toNat * (s.rpm a).toNat : Nat))

/-- The event is a bus transaction; a settle delay is not (R67). -/
def Event.isTransaction : Event → Bool
  | .write _ _ => true
  | .read _ _ => true
  | .wait _ => false
  | .failedWrite _ _ => true
  | .failedRead _ => true

/-- The bus traffic of the run: every transaction goes to DEV_ADDR (R42, R60). -/
def State.busTraffic (s : State) : List (BitVec 7 × Event) :=
  (s.trace.filter Event.isTransaction).map fun e => (s.params.devAddr, e)

/-- The device's output frequency for a prescale (R138), a property of the device. -/
def deviceOutputHz (p : Byte) : Rat := (oscHz : Rat) / (ticksPerPeriod * (p.toNat + 1) : Nat)

end Sys2Proof.Machine
end

