-- ==== Sys2Proof/Safety.lean ====
section
/-! DEFINITION. The terms the claims are stated in: when a command may run, what the bus answers, what a series of
successful or failing writes leaves, and the invariant of the states between commands. -/

namespace Sys2Proof.Machine

/-- No command is in progress (R48). -/
abbrev State.Idle (s : State) : Prop := s.position = .idle

/-- An INIT has completed and no command is in progress (R36): every command may run. -/
abbrev State.Ready (s : State) : Prop := s.position = .idle ∧ s.initialized = true

/-- The oracle lets the next transaction succeed (R65). -/
def Bus.succeeds (b : Bus) : Bool :=
  match b.choice with
  | .free => Config.busAnswer b.count != .fail
  | .answer a => a != .fail
  | .reference => true

/-- The oracle lets the next `n` transactions succeed: the premise R65 asks a claim to name. -/
def Bus.okFor : Nat → Bus → Bool
  | 0, _ => true
  | n + 1, b => b.succeeds && Bus.okFor n b.advance

/-- The oracle after `n` transactions. -/
def Bus.advanceBy (n : Nat) (b : Bus) : Bus := { b with script := b.script.drop n, count := b.count + n }

/-- The oracle lets `k` transactions succeed and fails the one after them (R65). -/
def Bus.failsAfter (k : Nat) (b : Bus) : Bool := Bus.okFor k b && !(Bus.advanceBy k b).succeeds

/-- The image after writes of (offset, byte) pairs, the first pair first (R79). -/
def Memory.writes (m : Memory) (ws : List (Byte × Byte)) : Memory :=
  ws.foldl (fun m w => m.write w.1.toNat w.2) m

/-- The state after these writes have succeeded (R63, R66). -/
def State.wrote (s : State) (ws : List (Byte × Byte)) : State :=
  { s with
    bus := s.bus.advanceBy ws.length
    img := s.img.writes ws
    trace := s.trace ++ ws.map fun w => .write w.1 w.2 }

/-- The state after a command has responded with this word, and done nothing else. -/
def State.answered (s : State) (resp : Word16) : State := { s with responses := s.responses ++ [resp] }

/-- The state after a write has failed and its command has answered BusError with the failing offset (R234). -/
def State.busFailed (s : State) (w : Byte × Byte) : State :=
  { s with
    bus := s.bus.advance
    trace := s.trace ++ [.failedWrite w.1 w.2]
    responses := s.responses ++ [0x01#8 ++ w.1] }

/-- The state in which a command of the writes `ws` and no read ends, where the oracle lets all of them succeed or
fails one: its writes in order, then the response (R232, R234). `resp` is the OK response. -/
def State.writesEnd (s : State) (ws : List (Byte × Byte)) (resp : Word16) (t : State) : Prop :=
  (s.bus.okFor ws.length = true → t = (s.wrote ws).answered resp) ∧
  (∀ k w, ws[k]? = some w → s.bus.failsAfter k = true → t = (s.wrote (ws.take k)).busFailed w)

/-- The oracle answers the next transaction, if it is a read, with this byte (R64, R65). -/
def Bus.gives (bus : Bus) (b : Byte) : Prop :=
  bus.choice = .answer (.ok b) ∨ (bus.choice = .free ∧ Config.busAnswer bus.count = .ok b)

/-- The bus transactions of a sequence of events, without its settle delays (R67). -/
def transactions (es : List Event) : List Event := es.filter Event.isTransaction

/-- The events of a sequence before its transaction number `k`, counted from 0, the settle delays between included. -/
def eventsBefore : Nat → List Event → List Event
  | _, [] => []
  | k, .wait ms :: es => .wait ms :: eventsBefore k es
  | 0, _ :: _ => []
  | k + 1, e :: es => e :: eventsBefore k es

/-- The (offset, byte) pairs of the writes in a sequence of events. -/
def writesOf : List Event → List (Byte × Byte)
  | [] => []
  | .write reg b :: es => (reg, b) :: writesOf es
  | _ :: es => writesOf es

/-- The state after these events, of which every transaction has succeeded, and nothing of the block is written. -/
def State.saw (s : State) (es : List Event) : State :=
  { s with
    bus := s.bus.advanceBy (transactions es).length
    img := s.img.writes (writesOf es)
    trace := s.trace ++ es }

/-- The event of the same transaction, failed (R66). -/
def Event.failed : Event → Event
  | .write reg b => .failedWrite reg b
  | .read reg _ => .failedRead reg
  | .wait ms => .wait ms
  | .failedWrite reg b => .failedWrite reg b
  | .failedRead reg => .failedRead reg

/-- The register offset of a transaction. -/
def Event.offset : Event → Byte
  | .write reg _ => reg
  | .read reg _ => reg
  | .wait _ => 0
  | .failedWrite reg _ => reg
  | .failedRead reg => reg

/-- The state after this transaction has failed and its command has answered BusError with its offset (R234). -/
def State.endedAt (s : State) (e : Event) : State :=
  { s with
    bus := s.bus.advance
    trace := s.trace ++ [e.failed]
    responses := s.responses ++ [0x01#8 ++ e.offset] }

/-- The events of FreqSeq where its read returns `old` (R136, R141). -/
def freqEvents (p : Params) (pre old : Byte) : List Event := [
  .read 0x00 old,
  .write 0x00 ((old &&& ~~~p.mode1Restart) ||| p.mode1Sleep),
  .write 0xFE pre,
  .write 0x00 old,
  .wait 5,
  .write 0x00 (old ||| p.mode1Restart)]

/-- The events of INIT where its reads return `m` and then `old` (R135, R140). -/
def initEvents (p : Params) (pre m old : Byte) : List Event := [
  .write 0xFA 0, .write 0xFB 0, .write 0xFC 0, .write 0xFD 0,
  .write 0x01 p.mode2Outdrv,
  .write 0x00 p.mode1Allcall,
  .wait 5,
  .read 0x00 m,
  .write 0x00 (m &&& ~~~p.mode1Sleep),
  .wait 5] ++ freqEvents p pre old

/-- The four writes of a duty window at a base offset (R68, R130, R131). -/
def windowWrites (base : Byte) (on off : Word16) : List (Byte × Byte) := [
  (base, on.extractLsb' 0 8),
  (base + 1, BitVec.setWidth 8 (on.extractLsb' 8 5)),
  (base + 2, off.extractLsb' 0 8),
  (base + 3, BitVec.setWidth 8 (off.extractLsb' 8 5))]

/-- The base offset of a channel (R90). -/
def channelBase (ch : Channel) : Byte := 0x06 + 4 * ch.setWidth 8

/-- The four writes of a pin value (R92, R187). -/
def pinWrites (pin : Channel) (v : Bool) : List (Byte × Byte) :=
  let h : Byte := if v then 0x10 else 0x00
  [(channelBase pin, 0x00), (channelBase pin + 1, h), (channelBase pin + 2, 0x00), (channelBase pin + 3, 0x10 - h)]

/-- The sixteen writes that show the pattern of phase `n` on a motor's pins (R184, R187). -/
def coilWrites (pins : PinMap) (n : Phase) : List (Byte × Byte) :=
  pinWrites pins.ain2 (patternOf n).c0 ++ pinWrites pins.bin1 (patternOf n).c1 ++
  pinWrites pins.ain1 (patternOf n).c2 ++ pinWrites pins.bin2 (patternOf n).c3

/-- The writes of `n` steps from phase `p`, the first step's first (R193). -/
def stepWrites (pins : PinMap) (dir : Direction) (style : Style) : Nat → Phase → List (Byte × Byte)
  | 0, _ => []
  | n + 1, p => coilWrites pins (nextPhase dir style p) ++ stepWrites pins dir style n (nextPhase dir style p)

/-- The phase after `n` steps (R193). -/
def phaseAfter (dir : Direction) (style : Style) : Nat → Phase → Phase
  | 0, p => p
  | n + 1, p => phaseAfter dir style n (nextPhase dir style p)

/-- How many polarity pins a pattern energizes (R41). -/
def Pattern.energized (q : Pattern) : Nat := q.c0.toNat + q.c1.toNat + q.c2.toNat + q.c3.toNat

/-- A failed check with its result byte (R231), or none. -/
def errorIf (c : Bool) (e : Status) (info : Byte) (next : Option (Status × Byte)) : Option (Status × Byte) :=
  match c with
  | true => some (e, info)
  | false => next

/-- The checks of R233, steps 1 to 5, in their order: the first that fails. -/
def firstError (i : Instr) (s : State) : Option (Status × Byte) :=
  errorIf (!i.wellFormed) .illegalCommand 0 <|
  match i with
  | .init hz => errorIf (prescaleOf hz == none) .invalidFrequency 0 none
  | .setFreq hz =>
    errorIf (!s.initialized) .notInitialized 0 <| errorIf (prescaleOf hz == none) .invalidFrequency 0 none
  | .setChannel _ _ _ => errorIf (!s.initialized) .notInitialized 0 none
  | .setAll _ _ => errorIf (!s.initialized) .notInitialized 0 none
  | .setPin pin val =>
    errorIf (!s.initialized) .notInitialized 0 <|
    errorIf (decide (15 < pin.toNat)) .invalidPin pin <|
    errorIf (decide (1 < val.toNat)) .invalidPinValue val none
  | .getStepper axis =>
    errorIf (!s.initialized) .notInitialized 0 <| errorIf (axisOf axis == none) .invalidAxis axis none
  | .setSpeed axis rpm =>
    errorIf (!s.initialized) .notInitialized 0 <| errorIf (axisOf axis == none) .invalidAxis axis <|
    errorIf (rpm == 0) .invalidSpeed 0 none
  | .oneStep axis _ _ =>
    errorIf (!s.initialized) .notInitialized 0 <| errorIf (axisOf axis == none) .invalidAxis axis none
  | .step axis _ _ _ =>
    errorIf (!s.initialized) .notInitialized 0 <| errorIf (axisOf axis == none) .invalidAxis axis none

/-- A dir code other than 1 and 2 (R105). -/
def badDirCode (w : CommandWord) : Bool := !((w.extractLsb' 40 8).toNat == 1 || (w.extractLsb' 40 8).toNat == 2)

/-- A style code other than 1 to 4 (R106). -/
def badStyleCode (w : CommandWord) : Bool := (w.extractLsb' 32 8).toNat == 0 || 4 < (w.extractLsb' 32 8).toNat

/-- An on or off field above 4096 (R109). -/
def badDutyField (w : CommandWord) : Bool :=
  4096 < (w.extractLsb' 16 16).toNat || 4096 < (w.extractLsb' 0 16).toNat

/-- The word is illegal by R102, R104, R105, R106, R108 or R109, said on its fields and the reserved-bit column of
R103. -/
def illegalByRule (w : CommandWord) : Bool :=
  match (w.extractLsb' 56 8).toNat with
  | 0x01 => w.extractLsb' 16 40 != 0
  | 0x02 => w.extractLsb' 16 40 != 0
  | 0x03 => w.extractLsb' 40 16 != 0 || 15 < (w.extractLsb' 32 8).toNat || badDutyField w
  | 0x04 => w.extractLsb' 32 24 != 0 || badDutyField w
  | 0x05 => w.extractLsb' 16 40 != 0
  | 0x06 => w.extractLsb' 0 48 != 0
  | 0x07 => w.extractLsb' 16 32 != 0
  | 0x08 => w.extractLsb' 0 32 != 0 || badDirCode w || badStyleCode w
  | 0x09 => badDirCode w || badStyleCode w
  | _ => true

/-- The offsets of R62. -/
def usedOffset (reg : Byte) : Bool :=
  reg.toNat ≤ 1 || (0x06 ≤ reg.toNat && reg.toNat ≤ 0x45) || (0xFA ≤ reg.toNat && reg.toNat ≤ 0xFE)

/-- The `_H` registers among them (R62, R68). -/
def highRegister (reg : Byte) : Bool :=
  (0x06 ≤ reg.toNat && reg.toNat ≤ 0x45 && reg.toNat % 2 == 1) || reg.toNat == 0xFB || reg.toNat == 0xFD

/-- An event the block may cause: an access of R62's table, an `_H` byte in the range of R91, a settle delay of
5 ms (R67). -/
def Event.legal : Event → Bool
  | .write reg b => usedOffset reg && (!highRegister reg || b.toNat ≤ 0x10)
  | .read reg _ => reg == 0x00
  | .wait ms => ms == 5
  | .failedWrite reg b => usedOffset reg && (!highRegister reg || b.toNat ≤ 0x10)
  | .failedRead reg => reg == 0x00

/-- The event is a failed transaction. -/
def Event.isFailed : Event → Bool
  | .failedWrite _ _ => true
  | .failedRead _ => true
  | _ => false

/-- The offsets of the registers of a channel block. -/
def channelOffsets (ch : Channel) : List Byte :=
  [channelBase ch, channelBase ch + 1, channelBase ch + 2, channelBase ch + 3]

/-- The offsets of the polarity channels of a motor (R184). -/
def coilOffsets (pins : PinMap) : List Byte :=
  channelOffsets pins.ain2 ++ channelOffsets pins.bin1 ++ channelOffsets pins.ain1 ++ channelOffsets pins.bin2

/-- The offsets a command may write in state `s`: R62's "written by" column, with the pins of R43. -/
def writableOffsets (s : State) : Instr → List Byte
  | .init _ => [0xFA, 0xFB, 0xFC, 0xFD, 0x01, 0x00, 0xFE]
  | .setFreq _ => [0x00, 0xFE]
  | .setChannel ch _ _ => channelOffsets (channelOfByte ch)
  | .setAll _ _ => [0xFA, 0xFB, 0xFC, 0xFD]
  | .setPin pin _ => channelOffsets (channelOfByte pin)
  | .getStepper _ => []
  | .setSpeed axis _ =>
    match axisOf axis with
    | none => []
    | some a => channelOffsets (s.params.pinMap a).pwma ++ channelOffsets (s.params.pinMap a).pwmb
  | .oneStep axis _ _ =>
    match axisOf axis with
    | none => []
    | some a => coilOffsets (s.params.pinMap a)
  | .step axis _ _ _ =>
    match axisOf axis with
    | none => []
    | some a => coilOffsets (s.params.pinMap a)

/-- The (writes, reads, waits) of R278. -/
def transactionCounts : Instr → Nat × Nat × Nat
  | .init _ => (11, 2, 3)
  | .setFreq _ => (4, 1, 1)
  | .setChannel _ _ _ => (4, 0, 0)
  | .setAll _ _ => (4, 0, 0)
  | .setPin _ _ => (4, 0, 0)
  | .getStepper _ => (0, 0, 0)
  | .setSpeed _ _ => (8, 0, 0)
  | .oneStep _ _ _ => (16, 0, 0)
  | .step _ _ _ count => (16 * count.toNat, 0, 0)

/-- The (writes, reads, waits) among some events. -/
def countEvents (es : List Event) : Nat × Nat × Nat :=
  (es.countP (fun e => match e with | .write _ _ => true | _ => false),
   es.countP (fun e => match e with | .read _ _ => true | _ => false),
   es.countP (fun e => match e with | .wait _ => true | _ => false))

/-- The commands run one after another, each from the state the one before left (R244). -/
def execAll : List Instr → State → Host.Outcome State Fault Refusal
  | [], s => .next s
  | i :: is, s =>
    match exec i s with
    | .next t => execAll is t
    | .fault f => .fault f
    | .refused r => .refused r

/-- The invariant of the states between commands. -/
structure State.Inv (s : State) : Prop where
  /-- No command is in progress (R48, R246). -/
  idle : s.position = .idle
  /-- The device image is in its canonical form, -/
  img_wf : s.img.wf = true
  /-- and lists only registers the block may write (R62, R73). -/
  img_used : ∀ c ∈ s.img, usedOffset (BitVec.ofNat 8 c.1) = true
  /-- Every event is one the block may cause (R62, R73, R91). -/
  trace_legal : ∀ e ∈ s.trace, e.legal = true
  /-- The frequency and the prescale belong together, or none is applied (R37, R132). -/
  freq : (s.freqHz = 0 ∧ s.prescale = 0) ∨ prescaleOf s.freqHz = some s.prescale
  /-- An initialized block has applied a frequency (R36, R140). -/
  init : s.initialized = true → prescaleOf s.freqHz = some s.prescale
  /-- The parameters are those of a block (R45). -/
  params : s.params.legal = true

end Sys2Proof.Machine
end

