-- ==== Sys2Proof/Certificates/Slice0/Obligations.lean ====
section
/-! DEFINITION. The statements for the provers. Each docstring names the rules of spec/ it formalises. Every statement
about the bus holds for every answer of the oracle (R65); where one needs a transaction to succeed it takes
`Bus.okFor` as a premise. -/

open Sys2Proof Sys2Proof.Machine

/-! ### Encoding -/

/-- Decoding the encoding of a well-formed command gives it back, every operand at every value (R101, R103, R114). -/
def Obligations.DecodeOfEncodeIsTheCommand : Prop :=
  ∀ i : Instr, i.wellFormed = true → decode (encode i) = .instr i

/-- A word that decodes is the encoding of its command, which is well formed: no bit is dropped (R101, R102). -/
def Obligations.EncodeOfDecodeIsTheWord : Prop :=
  ∀ (w : CommandWord) (i : Instr), decode w = .instr i → encode i = w ∧ i.wellFormed = true

/-- R112: every word is either illegal by R102, R104, R105, R106, R108 or R109, or decodes to exactly one command,
with the word's opcode and fields; and no word lies in two rows of the opcode table. -/
def Obligations.EveryWordDecodesOnceOrIsIllegal : Prop :=
  (∀ w : CommandWord,
    (illegalByRule w = true ∧ ∃ why, decode w = .illegal why) ∨
    (illegalByRule w = false ∧ ∃ i, decode w = .instr i ∧ i.opcode = w.extractLsb' 56 8 ∧
      encode i = w ∧ ∀ j, decode w = .instr j → j = i)) ∧
  (∀ r ∈ opcodeTable, ∀ r' ∈ opcodeTable, ∀ w : CommandWord, r.covers w = true → r'.covers w = true → r = r')

/-- A word that decodes lies in the opcode table's row of its command's mnemonic (spec/opcode_table.json, R103). -/
def Obligations.DecodedWordLiesInItsTableRow : Prop :=
  ∀ (w : CommandWord) (i : Instr), decode w = .instr i →
    ∃ r ∈ opcodeTable, r.mnemonic = i.mnemonic ∧ r.covers w = true

/-- Words written out from the spec, decoded: one of each command, both directions (R105), each style (R106), and on
apart from off in both commands that have them (R101, R115, and the words of V-S11, V-Q24, V-Q25, V-Q26). -/
def Obligations.WorkedEncodingsDecode : Prop :=
  decode 0x0100000000000640 = .instr (.init 1600) ∧
  decode 0x020000000000003C = .instr (.setFreq 60) ∧
  decode 0x0300000501230ABC = .instr (.setChannel 5 0x123 0xABC) ∧
  decode 0x0400000000000000 = .instr (.setAll 0 0) ∧
  decode 0x0400000008000400 = .instr (.setAll 2048 1024) ∧
  decode 0x0500000000001001 = .instr (.setPin 16 1) ∧
  decode 0x0603000000000000 = .instr (.getStepper 3) ∧
  decode 0x070100000000001E = .instr (.setSpeed 1 30) ∧
  decode 0x0801010100000000 = .instr (.oneStep 1 .forward .single) ∧
  decode 0x0801010200000000 = .instr (.oneStep 1 .forward .double) ∧
  decode 0x0802020300000000 = .instr (.oneStep 2 .backward .interleave) ∧
  decode 0x0801010400000000 = .instr (.oneStep 1 .forward .microstep) ∧
  decode 0x0901010200000004 = .instr (.step 1 .forward .double 4) ∧
  decode 0x0902020400000003 = .instr (.step 2 .backward .microstep 3)

/-! ### Steps and reset -/

/-- A step of an idle block whose host issues a word that decodes runs that command, with the word taken (R31, R246).
That the host's words are a list in the state is the model's choice (log entry 5). -/
def Obligations.StepRunsTheDecodedCommand : Prop :=
  ∀ (s : State) (w : CommandWord) (rest : List CommandWord) (i : Instr),
    s.position = .idle → s.commands = w :: rest → decode w = .instr i →
    step s = exec i { s with commands := rest }

/-- R235 and R102, R104: an illegal word is answered IllegalCommand with result 0, and nothing else happens. -/
def Obligations.IllegalWordIsAnsweredIllegalCommand : Prop :=
  ∀ (s : State) (w : CommandWord) (rest : List CommandWord),
    s.position = .idle → s.commands = w :: rest → illegalByRule w = true →
    step s = .next { s with commands := rest, responses := s.responses ++ [0x0600] }

/-- An idle block with no command waits: a step changes nothing (R261). That the wait is a step is the model's
choice (log entry 5). -/
def Obligations.IdleBlockWaitsForACommand : Prop :=
  ∀ s : State, s.position = .idle → s.commands = [] → step s = .next s

/-- A command in progress is finished, with one response and no new command taken, before anything else (R231, R246).
That one step finishes it is the model's choice (log entry 6). -/
def Obligations.UnfinishedCommandIsFinishedFirst : Prop :=
  ∀ s : State, s.position ≠ .idle →
    ∃ t r, step s = .next t ∧ t.position = .idle ∧ t.commands = s.commands ∧ t.responses = s.responses ++ [r]

/-- No command is taken while another is unfinished (R246). The refusal is the model's name for the move the host does
not have (log entry 6). -/
def Obligations.OverlappingCommandIsRefused : Prop :=
  ∀ (i : Instr) (s : State), s.position ≠ .idle → exec i s = .refused .commandOverlap

/-- R260: the reset state's registers, for every configuration; reset issues no transaction and does not change the
device. -/
def Obligations.ResetStateAndResetEvent : Prop :=
  (∀ p : Params,
    (State.resetWith p).observe = ⟨0, 0, 0, 0, false, 0, 0⟩ ∧ (State.resetWith p).position = .idle ∧
    (State.resetWith p).trace = []) ∧
  (∀ s : State,
    s.resetBlock.observe = ⟨0, 0, 0, 0, false, 0, 0⟩ ∧ s.resetBlock.position = .idle ∧
    s.resetBlock.trace = s.trace ∧ s.resetBlock.img = s.img ∧ s.resetBlock.bus = s.bus ∧
    s.resetBlock.params = s.params)

/-- A command run line by line, at most one bus transaction at a time, ends in the state in which it ends when run
whole, whatever the bus answers (R12, R48). -/
def Obligations.CommandIsItsSequenceOfTransactions : Prop :=
  (∀ s : State, finish (tick s) = finish s) ∧
  (∀ s : State, (tick s).trace = s.trace ∨ ∃ e, (tick s).trace = s.trace ++ [e]) ∧
  (∀ s : State, ∃ n, tick^[n] s = finish s)

/-! ### Errors and responses -/

/-- R240 with R233: a command whose checks fail answers the first failing check and does nothing else, and so does an
illegal word. -/
def Obligations.FailedCheckHasNoSideEffect : Prop :=
  (∀ (i : Instr) (s : State) (e : Status) (info : Byte),
    s.position = .idle → firstError i s = some (e, info) →
    exec i s = .next (s.answered (e.code ++ info))) ∧
  (∀ (s : State) (w : CommandWord) (rest : List CommandWord) (why : DecodeError),
    s.position = .idle → s.commands = w :: rest → decode w = .illegal why →
    step s = .next ({ s with commands := rest }.answered 0x0600))

/-- R236: every opcode but INIT answers NotInitialized, result 0, while `initialized` is 0. -/
def Obligations.NotInitializedBeforeInit : Prop :=
  ∀ (i : Instr) (s : State),
    i.wellFormed = true → (∀ hz, i ≠ .init hz) → s.position = .idle → s.initialized = false →
    exec i s = .next (s.answered 0x0700)

/-- R237: an `axis` other than 1 and 2 is answered InvalidAxis with the axis value. -/
def Obligations.OtherAxisIsInvalidAxis : Prop :=
  ∀ (s : State) (axis : Byte) (rpm : Word16) (dir : Direction) (style : Style) (count : BitVec 32),
    s.Ready → axis ≠ 1 → axis ≠ 2 →
    exec (.getStepper axis) s = .next (s.answered (0x03#8 ++ axis)) ∧
    exec (.setSpeed axis rpm) s = .next (s.answered (0x03#8 ++ axis)) ∧
    exec (.oneStep axis dir style) s = .next (s.answered (0x03#8 ++ axis)) ∧
    exec (.step axis dir style count) s = .next (s.answered (0x03#8 ++ axis))

/-- R238: InvalidPin for a pin above 15, InvalidPinValue for a pin of 15 or less with a value above 1, each with the
offending byte. -/
def Obligations.BadPinOrPinValue : Prop :=
  ∀ (s : State) (pin val : Byte), s.Ready →
    (15 < pin.toNat → exec (.setPin pin val) s = .next (s.answered (0x04#8 ++ pin))) ∧
    (pin.toNat ≤ 15 → 1 < val.toNat → exec (.setPin pin val) s = .next (s.answered (0x05#8 ++ val)))

/-- R239: InvalidFrequency from INIT (initialized or not) and SET_FREQ where `PrescaleOf(hz)` is invalid, InvalidSpeed
from SET_SPEED for rpm 0; result 0. -/
def Obligations.BadFrequencyOrSpeed : Prop :=
  (∀ (s : State) (hz : Word16), s.position = .idle → prescaleOf hz = none →
    exec (.init hz) s = .next (s.answered 0x0200)) ∧
  (∀ (s : State) (hz : Word16), s.Ready → prescaleOf hz = none →
    exec (.setFreq hz) s = .next (s.answered 0x0200)) ∧
  (∀ (s : State) (axis : Byte), s.Ready → axis = 1 ∨ axis = 2 →
    exec (.setSpeed axis 0) s = .next (s.answered 0x0800))

/-- R231: every command answers a next state with exactly one response more; the result byte is the new phase for
ONE_STEP with OK, the failing offset for BusError, the operand for InvalidAxis, InvalidPin and InvalidPinValue,
and 0 in every other case; the status codes are those of R230. An illegal word answers one response too. -/
def Obligations.EveryCommandEndsWithOneResponse : Prop :=
  (∀ (s : State) (w : CommandWord) (rest : List CommandWord),
    s.position = .idle → s.commands = w :: rest → illegalByRule w = true →
    ∃ t r, step s = .next t ∧ t.position = .idle ∧ t.responses = s.responses ++ [r] ∧ t.trace = s.trace ∧
      statusField r = 0x06 ∧ resultField r = 0) ∧
  ∀ (i : Instr) (s : State), s.position = .idle →
    ∃ (t : State) (r : Word16) (es : List Event),
      exec i s = .next t ∧ t.position = .idle ∧ t.responses = s.responses ++ [r] ∧ t.trace = s.trace ++ es ∧
      ((statusField r = 0x00 ∧
          ((∃ axis dir style a, i = .oneStep axis dir style ∧ axisOf axis = some a ∧
              resultField r = BitVec.setWidth 8 (t.phase a)) ∨
           ((∀ axis dir style, i ≠ .oneStep axis dir style) ∧ resultField r = 0))) ∨
       (statusField r = 0x01 ∧ ∃ e, es.getLast? = some e ∧ e.isFailed = true ∧ resultField r = e.offset) ∨
       (statusField r = 0x03 ∧
          ((∃ axis, i = .getStepper axis ∧ resultField r = axis) ∨
           (∃ axis rpm, i = .setSpeed axis rpm ∧ resultField r = axis) ∨
           (∃ axis dir style, i = .oneStep axis dir style ∧ resultField r = axis) ∨
           (∃ axis dir style count, i = .step axis dir style count ∧ resultField r = axis))) ∨
       (statusField r = 0x04 ∧ ∃ pin val, i = .setPin pin val ∧ resultField r = pin) ∨
       (statusField r = 0x05 ∧ ∃ pin val, i = .setPin pin val ∧ resultField r = val) ∨
       ((statusField r = 0x02 ∨ statusField r = 0x06 ∨ statusField r = 0x07 ∨ statusField r = 0x08) ∧
          resultField r = 0))

/-- A command's trace ends at its first failed transaction, and the response is BusError exactly when there is one
(R66, R234). -/
def Obligations.FailedEventEndsTheCommand : Prop :=
  ∀ (i : Instr) (s t : State), exec i s = .next t →
    ∃ (es : List Event) (r : Word16),
      t.trace = s.trace ++ es ∧ t.responses = s.responses ++ [r] ∧
      (∀ e ∈ es.dropLast, e.isFailed = false) ∧
      (statusField r = 0x01 ↔ ∃ e, es.getLast? = some e ∧ e.isFailed = true)

/-! ### The packer's commands -/

/-- R140 and R234: INIT's sixteen events in order, its reads returning `m` and `old`, the oracle's bytes. On a bus
that answers all thirteen transactions INIT ends initialized, with the frequency and the prescale written. On a bus
that fails transaction number `k` (from 0) it ends there, with the events before it, not initialized, and with the
frequency and the prescale written exactly if the PRESCALE write, number 10, came before. `phase` and `rpm` are never
written. The `held` byte and the image are the model's bookkeeping (log entries 1 and 4). -/
def Obligations.InitRunsItsSequence : Prop :=
  ∀ (s : State) (hz : Word16) (p : Byte), s.position = .idle → prescaleOf hz = some p →
    ∃ m old : Byte,
      (∀ b, (s.bus.advanceBy 6).gives b → m = b) ∧ (∀ b, (s.bus.advanceBy 8).gives b → old = b) ∧
      (s.bus.okFor 13 = true →
        exec (.init hz) s = .next { (s.saw (initEvents s.params p m old)).answered 0x0000 with
          initialized := true, freqHz := hz, prescale := p, held := old }) ∧
      (∀ k e, (transactions (initEvents s.params p m old))[k]? = some e → s.bus.failsAfter k = true →
        exec (.init hz) s = .next { (s.saw (eventsBefore k (initEvents s.params p m old))).endedAt e with
          initialized := false
          freqHz := if 10 < k then hz else s.freqHz
          prescale := if 10 < k then p else s.prescale
          held := if 8 < k then old else if 6 < k then m else s.held })

/-- INIT on the reference device (R79): the two reads return the bytes INIT itself has written, so the result does not
depend on the device's contents before it (R135, R136, R140). -/
def Obligations.InitOnTheReferenceDevice : Prop :=
  ∀ (s : State) (hz : Word16) (p old : Byte) (n : Nat),
    s.position = .idle → prescaleOf hz = some p → s.bus = { script := [], rest := .reference, count := n } →
    old = s.params.mode1Allcall &&& ~~~s.params.mode1Sleep →
    ∃ t, exec (.init hz) s = .next t ∧ t.responses = s.responses ++ [0x0000] ∧
      t.img.read 0x00 = some (old ||| s.params.mode1Restart) ∧ t.img.read 0x01 = some s.params.mode2Outdrv ∧
      t.img.read 0xFE = some p ∧ t.img.read 0xFA = some 0 ∧ t.img.read 0xFB = some 0 ∧
      t.img.read 0xFC = some 0 ∧ t.img.read 0xFD = some 0

/-- R141 and R234: SET_FREQ's six events in order, its read returning `old`, the oracle's byte. On a bus that answers
all five transactions it ends with the frequency and the prescale written; on a bus that fails transaction number `k`
(from 0) it ends there, with the events before it, and with the two written exactly if the PRESCALE write, number 2,
came before. The `held` byte and the image are the model's bookkeeping (log entries 1 and 4). -/
def Obligations.SetFreqRunsItsSequence : Prop :=
  ∀ (s : State) (hz : Word16) (p : Byte), s.Ready → prescaleOf hz = some p →
    ∃ old : Byte,
      (∀ b, s.bus.gives b → old = b) ∧
      (s.bus.okFor 5 = true →
        exec (.setFreq hz) s = .next { (s.saw (freqEvents s.params p old)).answered 0x0000 with
          freqHz := hz, prescale := p, held := old }) ∧
      (∀ k e, (transactions (freqEvents s.params p old))[k]? = some e → s.bus.failsAfter k = true →
        exec (.setFreq hz) s = .next { (s.saw (eventsBefore k (freqEvents s.params p old))).endedAt e with
          freqHz := if 2 < k then hz else s.freqHz
          prescale := if 2 < k then p else s.prescale
          held := if 0 < k then old else s.held })

/-- What a failed or successful INIT or SET_FREQ leaves in the registers (R37, R140, R141, R234): the frequency and
prescale are the new ones exactly when the PRESCALE write is in the command's trace; `initialized` after INIT says
whether it was answered OK, and SET_FREQ keeps it; nothing else of the block changes. -/
def Obligations.FrequencyFollowsThePrescaleWrite : Prop :=
  ∀ (s : State) (hz : Word16) (p : Byte), prescaleOf hz = some p →
    (∀ t, exec (.init hz) s = .next t → ∃ (es : List Event) (r : Word16),
      t.trace = s.trace ++ es ∧ t.responses = s.responses ++ [r] ∧
      t.observe = { s.observe with
        initialized := r == 0x0000
        freqHz := if Event.write 0xFE p ∈ es then hz else s.freqHz
        prescale := if Event.write 0xFE p ∈ es then p else s.prescale }) ∧
    (∀ t, s.initialized = true → exec (.setFreq hz) s = .next t → ∃ es : List Event,
      t.trace = s.trace ++ es ∧
      t.observe = { s.observe with
        freqHz := if Event.write 0xFE p ∈ es then hz else s.freqHz
        prescale := if Event.write 0xFE p ∈ es then p else s.prescale })

/-- R142: SET_CHANNEL writes the four bytes of the window at `0x06 + 4*ch`, or ends at the write the bus fails. -/
def Obligations.SetChannelWritesTheWindow : Prop :=
  ∀ (s : State) (ch : Byte) (on off : Word16),
    s.Ready → ch.toNat ≤ 15 → on.toNat ≤ 4096 → off.toNat ≤ 4096 →
    ∃ t, exec (.setChannel ch on off) s = .next t ∧
      s.writesEnd (windowWrites (0x06 + 4 * ch) on off) 0x0000 t

/-- R143: SET_ALL writes the four bytes of the window at 0xFA, or ends at the write the bus fails. -/
def Obligations.SetAllWritesTheBroadcastWindow : Prop :=
  ∀ (s : State) (on off : Word16),
    s.Ready → on.toNat ≤ 4096 → off.toNat ≤ 4096 →
    ∃ t, exec (.setAll on off) s = .next t ∧ s.writesEnd (windowWrites 0xFA on off) 0x0000 t

/-- R144: SET_PIN writes the full-on window for 1 and the full-off window for 0 at `0x06 + 4*pin`, or ends at the write
the bus fails. -/
def Obligations.SetPinWritesASentinelWindow : Prop :=
  ∀ (s : State) (pin b : Byte), s.Ready → pin.toNat ≤ 15 → b = 0x06 + 4 * pin →
    (∃ t, exec (.setPin pin 1) s = .next t ∧
      s.writesEnd [(b, 0x00), (b + 1, 0x10), (b + 2, 0x00), (b + 3, 0x00)] 0x0000 t) ∧
    (∃ t, exec (.setPin pin 0) s = .next t ∧
      s.writesEnd [(b, 0x00), (b + 1, 0x00), (b + 2, 0x00), (b + 3, 0x10)] 0x0000 t)

/-! ### The sequencer's commands -/

/-- R107, R247: the axis operand 1 names axis 1 and 2 names axis 2, each with its own phase, speed, pins and steps per
revolution, and no other value names an axis. -/
def Obligations.AxisOperandNamesItsMotor : Prop :=
  axisOf 1 = some .one ∧ axisOf 2 = some .two ∧ (∀ b, b ≠ 1 → b ≠ 2 → axisOf b = none) ∧
  (∀ s : State, s.phase .one = s.phase1 ∧ s.phase .two = s.phase2 ∧ s.rpm .one = s.rpm1 ∧ s.rpm .two = s.rpm2) ∧
  (∀ (s : State) (n : Phase), s.setPhase .one n = { s with phase1 := n } ∧ s.setPhase .two n = { s with phase2 := n }) ∧
  (∀ (s : State) (v : Word16), s.setRpm .one v = { s with rpm1 := v } ∧ s.setRpm .two v = { s with rpm2 := v }) ∧
  (∀ p : Params, p.pinMap .one = p.pinMap1 ∧ p.pinMap .two = p.pinMap2 ∧
    p.stepsPerRev .one = p.stepsPerRev1 ∧ p.stepsPerRev .two = p.stepsPerRev2)

/-- R190: GET_STEPPER of axis 1 or 2 answers OK and does nothing else. -/
def Obligations.GetStepperOnlyAnswers : Prop :=
  ∀ (s : State) (axis : Byte), s.Ready → axis = 1 ∨ axis = 2 →
    exec (.getStepper axis) s = .next (s.answered 0x0000)

/-- R191: SET_SPEED stores the speed, then writes PWMA and PWMB full-on, or ends at the write the bus fails with the
speed already stored. -/
def Obligations.SetSpeedStoresAndPowersTheBridges : Prop :=
  ∀ (s : State) (axis : Byte) (a : Axis) (rpm : Word16),
    s.Ready → axisOf axis = some a → rpm ≠ 0 →
    ∃ t, exec (.setSpeed axis rpm) s = .next t ∧
      (s.setRpm a rpm).writesEnd
        (pinWrites (s.params.pinMap a).pwma true ++ pinWrites (s.params.pinMap a).pwmb true) 0x0000 t

/-- R192: ONE_STEP moves the phase, then writes the new phase's pattern to the four polarity channels and answers the
new phase, or ends at the write the bus fails with the phase already moved. -/
def Obligations.OneStepMovesAndWritesThePattern : Prop :=
  ∀ (s : State) (axis : Byte) (a : Axis) (dir : Direction) (style : Style) (n : Phase),
    s.Ready → axisOf axis = some a → n = nextPhase dir style (s.phase a) →
    ∃ t, exec (.oneStep axis dir style) s = .next t ∧
      (s.setPhase a n).writesEnd (coilWrites (s.params.pinMap a) n) (0x00#8 ++ BitVec.setWidth 8 n) t

/-- R193: STEP on a bus that answers all `16 * count` writes makes `count` steps, their writes in order, and answers
OK with result 0. -/
def Obligations.StepMakesCountSteps : Prop :=
  ∀ (s : State) (axis : Byte) (a : Axis) (dir : Direction) (style : Style) (count : BitVec 32),
    s.Ready → axisOf axis = some a → s.bus.okFor (16 * count.toNat) = true →
    exec (.step axis dir style count) s =
      .next (((s.setPhase a (phaseAfter dir style count.toNat (s.phase a))).wrote
        (stepWrites (s.params.pinMap a) dir style count.toNat (s.phase a))).answered 0x0000)

/-- R193 and R234, a BusError in iteration `k + 1` of STEP, at its write number `j + 1`: `k` iterations are complete,
the phase is the new one of iteration `k + 1`, its coil write is partial, and no later iteration runs. -/
def Obligations.StepEndsInTheIterationTheBusFails : Prop :=
  ∀ (s : State) (axis : Byte) (a : Axis) (dir : Direction) (style : Style) (count : BitVec 32) (k j : Nat)
    (w : Byte × Byte),
    s.Ready → axisOf axis = some a → k < count.toNat →
    (coilWrites (s.params.pinMap a) (phaseAfter dir style (k + 1) (s.phase a)))[j]? = some w →
    s.bus.failsAfter (16 * k + j) = true →
    exec (.step axis dir style count) s =
      .next (((s.setPhase a (phaseAfter dir style (k + 1) (s.phase a))).wrote
        (stepWrites (s.params.pinMap a) dir style k (s.phase a) ++
          (coilWrites (s.params.pinMap a) (phaseAfter dir style (k + 1) (s.phase a))).take j)).busFailed w)

/-- A STEP with `count` steps leaves the state and the trace that `count` ONE_STEP commands with the same operands
leave, but for the responses, on a bus that answers every transaction (R193's corner case). -/
def Obligations.StepEqualsThatManyOneSteps : Prop :=
  ∀ (s : State) (axis : Byte) (dir : Direction) (style : Style) (count : BitVec 32),
    s.Ready → axis = 1 ∨ axis = 2 → s.bus.okFor (16 * count.toNat) = true →
    ∃ t rs, exec (.step axis dir style count) s = .next t ∧
      execAll (List.replicate count.toNat (.oneStep axis dir style)) s = .next { t with responses := rs } ∧
      rs.length = s.responses.length + count.toNat

/-! ### Frames and whole-machine rules -/

/-- R33: only ONE_STEP and STEP naming an axis write its phase, and its reset value is 0. -/
def Obligations.PhaseWrittenOnlyByItsOwnSteps : Prop :=
  (∀ (i : Instr) (s t : State) (a : Axis), exec i s = .next t →
    (∀ axis dir style, i = .oneStep axis dir style → axisOf axis ≠ some a) →
    (∀ axis dir style count, i = .step axis dir style count → axisOf axis ≠ some a) →
    t.phase a = s.phase a) ∧
  (∀ (p : Params) (a : Axis), (State.resetWith p).phase a = 0)

/-- Frame of the other registers of the block (R34, R36, R37): only SET_SPEED naming an axis writes its speed and never
writes 0; only INIT writes `initialized`; only INIT and SET_FREQ write the frequency, the prescale and the held
MODE1 byte; no command writes the parameters or the host's commands. The held byte and the host's commands in the state
are the model's (log entries 1 and 5). -/
def Obligations.OtherRegistersWrittenOnlyByTheirCommands : Prop :=
  ∀ (i : Instr) (s t : State), exec i s = .next t →
    (∀ a, (∀ axis rpm, i = .setSpeed axis rpm → axisOf axis ≠ some a) → t.rpm a = s.rpm a) ∧
    (∀ a, s.rpm a ≠ 0 → t.rpm a ≠ 0) ∧
    ((∀ hz, i ≠ .init hz) → t.initialized = s.initialized) ∧
    ((∀ hz, i ≠ .init hz ∧ i ≠ .setFreq hz) →
      t.freqHz = s.freqHz ∧ t.prescale = s.prescale ∧ t.held = s.held) ∧
    t.params = s.params ∧ t.commands = s.commands ∧ t.position = s.position

/-- Frame of the device's registers (R62, R73): in the image, every offset but those the command may write reads as
before, whatever the bus answers. The image is the model's record of successful writes (log entry 4). -/
def Obligations.OtherDeviceRegistersUnchanged : Prop :=
  ∀ (i : Instr) (s t : State) (reg : Byte), exec i s = .next t → reg ∉ writableOffsets s i →
    t.img.read reg.toNat = s.img.read reg.toNat

/-- The bus accesses of every command are those of R62's table: writes only of the registers the table gives it, reads
only of MODE1 by INIT and SET_FREQ, and every `_H` byte at most 0x10 (R91). -/
def Obligations.CommandsAccessOnlyTheirRegisters : Prop :=
  ∀ (i : Instr) (s t : State) (es : List Event), exec i s = .next t → t.trace = s.trace ++ es →
    ∀ e ∈ es, e.legal = true ∧
      (∀ reg b, e = .write reg b ∨ e = .failedWrite reg b → reg ∈ writableOffsets s i) ∧
      (∀ reg b, e = .read reg b ∨ e = .failedRead reg → ∃ hz, i = .init hz ∨ i = .setFreq hz)

/-- R278: the writes, reads and waits of every command that is answered OK. -/
def Obligations.TransactionCountsOfCompletedCommands : Prop :=
  ∀ (i : Instr) (s t : State) (es : List Event) (r : Word16),
    exec i s = .next t → t.trace = s.trace ++ es → t.responses = s.responses ++ [r] → statusField r = 0x00 →
    countEvents es = transactionCounts i

/-- The trace, the responses and the host's later commands are observed, never read: a command does the same whatever
they are (R32: no later command reads the outcome of an earlier one). -/
def Obligations.OutcomesOfEarlierCommandsAreNeverRead : Prop :=
  ∀ (i : Instr) (s t : State) (tr : List Event) (rs : List Word16) (cs : List CommandWord),
    exec i s = .next t →
    ∃ (es : List Event) (r : Word16),
      t.trace = s.trace ++ es ∧ t.responses = s.responses ++ [r] ∧
      exec i { s with trace := tr, responses := rs, commands := cs } =
        .next { t with trace := tr ++ es, responses := rs ++ [r], commands := cs }

/-- The speeds, the frequency and the prescale are never read (R34, R37): changing them changes no phase, no event and
no response of any command. -/
def Obligations.SpeedAndFrequencyAreNeverRead : Prop :=
  ∀ (i : Instr) (s t : State) (r1 r2 f : Word16) (p : Byte), exec i s = .next t →
    ∃ (r1' r2' f' : Word16) (p' : Byte),
      exec i { s with rpm1 := r1, rpm2 := r2, freqHz := f, prescale := p } =
        .next { t with rpm1 := r1', rpm2 := r2', freqHz := f', prescale := p' }

/-- Every step keeps the invariant of the states between commands (R37, R48, R62, R73, R91). Its clauses on the
image are about the model's record of it (log entry 4). -/
def Obligations.StepKeepsTheInvariant : Prop :=
  ∀ s t : State, s.Inv → step s = .next t → t.Inv

/-- The invariant holds at reset, for every configuration of the block (R260, R45). -/
def Obligations.ResetMeetsTheInvariant : Prop :=
  ∀ p : Params, p.legal = true → (State.resetWith p).Inv

/-- Every step, from any state at all, keeps the device image in its canonical form (log entry 4). -/
def Obligations.StepKeepsTheImageCanonical : Prop :=
  ∀ s t : State, s.img.wf = true → step s = .next t → t.img.wf = true

/-! ### Packing and prescale -/

/-- R91: bits H[3:0] are tick bits 11 to 8, bit H[4] is 1 exactly for 4096, bits H[7:5] are 0, and L is the low byte.
-/
def Obligations.DutyBytesOfAWindow : Prop :=
  ∀ v : Word16, v.toNat ≤ 4096 →
    dutyLow v = v.extractLsb' 0 8 ∧ (dutyHigh v).extractLsb' 0 4 = v.extractLsb' 8 4 ∧
    ((dutyHigh v).getLsbD 4 = true ↔ v = 4096) ∧ (dutyHigh v).extractLsb' 5 3 = 0 ∧
    (dutyHigh v).toNat * 256 + (dutyLow v).toNat = v.toNat

/-- R90, R62: the offsets of the channel registers, 0x06 to 0x45, no two channels or parts sharing one. -/
def Obligations.ChannelRegistersAreDistinct : Prop :=
  (∀ ch part, (DevReg.led ch part).offset.toNat = 0x06 + 4 * ch.toNat + part.index) ∧
  (∀ r r' : DevReg, r.offset = r'.offset → r = r')

/-- R132: the integer expression is the source's formula rounded half up, exactly, for every `hz` above 0; `PrescaleOf`
is valid when it lies in 3 to 255, and gives it; an invalid `hz` raises InvalidFrequency. -/
def Obligations.PrescaleIsTheRoundedFormula : Prop :=
  (∀ hz : Nat, 0 < hz →
    prescaleInt hz = ⌊(25000000 : ℚ) / (4096 * hz) - 1 + 1 / 2⌋ ∧
    prescaleInt hz = ((50000000 + 4096 * hz) / (8192 * hz) : Nat) - 1) ∧
  prescaleOf 0 = none ∧
  (∀ (s : State) (hz : Word16), s.Ready → prescaleOf hz = none →
    exec (.init hz) s = .next (s.answered 0x0200) ∧ exec (.setFreq hz) s = .next (s.answered 0x0200)) ∧
  (∀ hz : Word16, hz ≠ 0 → ∀ p : Byte,
    prescaleOf hz = some p ↔
      (3 ≤ prescaleInt hz.toNat ∧ prescaleInt hz.toNat ≤ 255 ∧ (p.toNat : Int) = prescaleInt hz.toNat))

/-- R133: the real value is never an integer plus one half, so whichever integer is nearest, by whatever rule for ties,
is the same prescale. -/
def Obligations.PrescaleNeverTies : Prop :=
  ∀ hz : Nat, 0 < hz →
    (∀ k : ℤ, (25000000 : ℚ) / (4096 * hz) - 1 ≠ k + 1 / 2) ∧
    (∀ n : ℤ, |(25000000 : ℚ) / (4096 * hz) - 1 - n| ≤ 1 / 2 → n = prescaleInt hz)

/-- R137: the frequencies with a valid prescale are exactly 24 to 1743 Hz, with the values the rule gives at the ends,
and 1527 to 1743 Hz all give 3. -/
def Obligations.ValidFrequenciesAre24To1743 : Prop :=
  (∀ hz : Word16, (prescaleOf hz).isSome = true ↔ (24 ≤ hz.toNat ∧ hz.toNat ≤ 1743)) ∧
  prescaleInt 23 = 264 ∧ prescaleOf 24 = some 253 ∧ prescaleOf 1743 = some 3 ∧ prescaleInt 1744 = 2 ∧
  (∀ hz : Word16, 1527 ≤ hz.toNat → hz.toNat ≤ 1743 → prescaleOf hz = some 3)

/-! ### Phase arithmetic

The increments of SINGLE, INTERLEAVE and MICROSTEP are the spec's own: R182 marks those rows "[from general knowledge,
not in source]" (92 D6 to D8, 93 G4 to G6). Only the DOUBLE row is the source's. -/

/-- R183: one step is 5-bit wrap-around arithmetic with the increment of R182's table, chosen before the move.
Three of the table's rows are the spec's own (above). -/
def Obligations.StepIsWrapAroundByTheTable : Prop :=
  ∀ p : Phase,
    (∀ style, nextPhase .forward style p = p + BitVec.ofNat 5 (delta style p) ∧
      nextPhase .backward style p = p - BitVec.ofNat 5 (delta style p)) ∧
    delta .double p = (if (p.toNat / 4) % 2 = 0 then 4 else 8) ∧
    delta .single p = (if (p.toNat / 4) % 2 = 0 then 8 else 4) ∧
    delta .interleave p = 4 ∧ delta .microstep p = 1

/-- R180, R181, R39: the pattern of a phase is the table's entry at `p // 4`, which is `p[4:2]`; R41: an entry of even
index energizes one pin and one of odd index two. -/
def Obligations.PatternIsTheTableEntry : Prop :=
  ∀ p : Phase, (patternIndex p).toNat = p.toNat / 4 ∧ patternIndex p = p.extractLsb' 2 3 ∧
    (patternOf p).energized = (if (p.toNat / 4) % 2 = 0 then 1 else 2) ∧
    patternOf p = (match p.toNat / 4 with
    | 0 => ⟨true, false, false, false⟩
    | 1 => ⟨true, true, false, false⟩
    | 2 => ⟨false, true, false, false⟩
    | 3 => ⟨false, true, true, false⟩
    | 4 => ⟨false, false, true, false⟩
    | 5 => ⟨false, false, true, true⟩
    | 6 => ⟨false, false, false, true⟩
    | _ => ⟨true, false, false, true⟩)

/-- R202: DOUBLE FORWARD from an odd index returns after 4 steps and after 8; from an even index it is at
`p + 4 + 8*(n-1)` after `n` steps, never at `p`. -/
def Obligations.DoubleForwardReturnsOnlyFromOddIndex : Prop :=
  ∀ p : Phase,
    (oddIndex p = true → phaseAfter .forward .double 4 p = p ∧ phaseAfter .forward .double 8 p = p) ∧
    (oddIndex p = false → ∀ n, 1 ≤ n →
      (phaseAfter .forward .double n p).toNat = (p.toNat + 4 + 8 * (n - 1)) % 32 ∧
      phaseAfter .forward .double n p ≠ p)

/-- R203: from an odd index `N` DOUBLE steps FORWARD and `N` BACKWARD restore the phase, visiting the phases `8k` ahead
and then back again; from an even index with `N ≥ 1` they end 4 before the start. -/
def Obligations.DoubleBackwardUndoesForwardOnlyFromOddIndex : Prop :=
  ∀ (p : Phase) (n : Nat),
    (oddIndex p = true →
      (∀ k ≤ n, phaseAfter .forward .double k p = p + BitVec.ofNat 5 (8 * k)) ∧
      (∀ k ≤ n, phaseAfter .backward .double k (phaseAfter .forward .double n p) =
        phaseAfter .forward .double (n - k) p)) ∧
    (oddIndex p = false → 1 ≤ n →
      phaseAfter .backward .double n (phaseAfter .forward .double n p) = p - 4)

/-- R204: SINGLE mirrors DOUBLE: even index and one pin after every step; moves of 8 from an even index and of 4 from
an odd one; 4 steps return from an even index; FORWARD then BACKWARD restores exactly from an even index. SINGLE's
increments are the spec's own (D6, G4). -/
def Obligations.SingleMirrorsDouble : Prop :=
  ∀ (p : Phase) (n : Nat),
    (∀ dir, 1 ≤ n → oddIndex (phaseAfter dir .single n p) = false ∧
      (patternOf (phaseAfter dir .single n p)).energized = 1) ∧
    (oddIndex p = false → ∀ dir, phaseAfter dir .single 4 p = p) ∧
    (nextPhase .forward .single p = p + (if oddIndex p then 4 else 8)) ∧
    (nextPhase .backward .single p = p - (if oddIndex p then 4 else 8)) ∧
    (1 ≤ n → (phaseAfter .backward .single n (phaseAfter .forward .single n p) = p ↔ oddIndex p = false))

/-- R205: INTERLEAVE moves 4 on every step, the patterns alternate between one and two pins, 8 steps return, and `N`
steps FORWARD then `N` BACKWARD always restore the phase. INTERLEAVE's increment is the spec's own (D7, G5). -/
def Obligations.InterleaveIsReversible : Prop :=
  ∀ (p : Phase) (n : Nat),
    phaseAfter .forward .interleave n p = p + BitVec.ofNat 5 (4 * n) ∧
    phaseAfter .backward .interleave n p = p - BitVec.ofNat 5 (4 * n) ∧
    (∀ dir, phaseAfter dir .interleave 8 p = p ∧
      (patternOf (nextPhase dir .interleave p)).energized + (patternOf p).energized = 3) ∧
    phaseAfter .backward .interleave n (phaseAfter .forward .interleave n p) = p

/-- R206: MICROSTEP moves 1 on every step, 32 steps return, `N` steps FORWARD then `N` BACKWARD always restore the
phase, and the pattern changes only when the phase crosses a multiple of 4. MICROSTEP's increment is the spec's own
(D8, G6). -/
def Obligations.MicrostepIsReversible : Prop :=
  ∀ (p : Phase) (n : Nat),
    phaseAfter .forward .microstep n p = p + BitVec.ofNat 5 n ∧
    phaseAfter .backward .microstep n p = p - BitVec.ofNat 5 n ∧
    (∀ dir, phaseAfter dir .microstep 32 p = p) ∧
    phaseAfter .backward .microstep n (phaseAfter .forward .microstep n p) = p ∧
    (patternOf (nextPhase .forward .microstep p) ≠ patternOf p ↔ p.toNat % 4 = 3) ∧
    (patternOf (nextPhase .backward .microstep p) ≠ patternOf p ↔ p.toNat % 4 = 0)

/-- R200: the increments of SINGLE, DOUBLE and INTERLEAVE are multiples of 4, so they keep the low two bits of the
phase over any number of steps; a MICROSTEP changes them. All increments but DOUBLE's are the spec's own (above). -/
def Obligations.OnlyMicrostepChangesTheLowBits : Prop :=
  ∀ (dir : Direction) (p : Phase),
    (∀ style, style ≠ .microstep → 4 ∣ delta style p ∧
      ∀ n, (phaseAfter dir style n p).extractLsb' 0 2 = p.extractLsb' 0 2) ∧
    (nextPhase dir .microstep p).extractLsb' 0 2 ≠ p.extractLsb' 0 2

/-- R201: after any DOUBLE step the index is odd and the pattern energizes two pins; a DOUBLE step moves 8 from an odd
index and 4 from an even one. -/
def Obligations.DoubleLandsOnOddIndex : Prop :=
  ∀ (dir : Direction) (p : Phase) (n : Nat),
    (1 ≤ n → oddIndex (phaseAfter dir .double n p) = true ∧
      (patternOf (phaseAfter dir .double n p)).energized = 2) ∧
    (nextPhase .forward .double p = p + (if oddIndex p then 8 else 4)) ∧
    (nextPhase .backward .double p = p - (if oddIndex p then 8 else 4))

/-! ### Parameters and observations -/

/-- R44, R45: a pin map or a steps-per-revolution outside its range is refused at construction, and one inside it is
kept as given; the default configuration is the one R42, R43, R45 and R47 give. The pin numbers of R43 and the MODE
constants of R47 are marked general knowledge by the spec ("[from general knowledge, not in source]", 93 G2 and G3).
-/
def Obligations.IllegalConfigurationIsRefused : Prop :=
  (∀ a b c d e f : Nat, (PinMap.construct a b c d e f).isSome = true ↔
    (a ≤ 15 ∧ b ≤ 15 ∧ c ≤ 15 ∧ d ≤ 15 ∧ e ≤ 15 ∧ f ≤ 15)) ∧
  (∀ (a b c d e f : Nat) (m : PinMap), PinMap.construct a b c d e f = some m →
    m.pwma.toNat = a ∧ m.ain2.toNat = b ∧ m.ain1.toNat = c ∧ m.pwmb.toNat = d ∧ m.bin2.toNat = e ∧ m.bin1.toNat = f) ∧
  (∀ n : Nat, (stepsPerRevOf n).isSome = true ↔ (1 ≤ n ∧ n ≤ 65535)) ∧
  (∀ (n : Nat) (k : Word16), stepsPerRevOf n = some k → k.toNat = n) ∧
  PinMap.construct 8 9 10 13 12 11 = some (Params.standard.pinMap .one) ∧
  PinMap.construct 2 3 4 7 6 5 = some (Params.standard.pinMap .two) ∧
  Params.standard.stepsPerRev .one = 200 ∧ Params.standard.stepsPerRev .two = 200 ∧
  Params.standard.devAddr = 0x60 ∧
  Params.standard.mode1Sleep = 0x10 ∧ Params.standard.mode1Restart = 0x80 ∧ Params.standard.mode1Allcall = 0x01 ∧
  Params.standard.mode2Outdrv = 0x04 ∧
  Params.standard.legal = true

/-- R35: `secondsPerStep` has no value while the speed is 0, and after SET_SPEED is exactly 60 / (STEPS_PER_REV * rpm)
(R191), whatever the bus answers. -/
def Obligations.SecondsPerStepAfterSetSpeed : Prop :=
  (∀ (s : State) (a : Axis), s.rpm a = 0 → s.secondsPerStep a = none) ∧
  (∀ (s t : State) (axis : Byte) (a : Axis) (rpm : Word16),
    s.Ready → axisOf axis = some a → rpm ≠ 0 → exec (.setSpeed axis rpm) s = .next t →
    t.secondsPerStep a = some (60 / ((s.params.stepsPerRev a).toNat * rpm.toNat)))

/-- R42: every bus transaction of the run goes to DEV_ADDR, in the trace's order, and a step changes neither the
address nor the traffic before it. -/
def Obligations.AllTrafficGoesToTheDeviceAddress : Prop :=
  (∀ s : State, ∀ x ∈ s.busTraffic, x.1 = s.params.devAddr) ∧
  (∀ (i : Instr) (s t : State), exec i s = .next t →
    t.params.devAddr = s.params.devAddr ∧ s.busTraffic <+: t.busTraffic)
end

