-- ==== Sys2Proof/Laws/Decode.lean ====
section
/-! SUPPORT. What the parts of the decoder can answer. -/

namespace Sys2Proof

open Machine

theorem Direction.code_of_ofCode {b : Byte} {d : Direction} (h : Direction.ofCode b = some d) : d.code = b := by
  unfold Direction.ofCode at h
  split at h
  · cases h; simp_all [Direction.code]
  · split at h
    · cases h; simp_all [Direction.code]
    · cases h

theorem Direction.ofCode_code (d : Direction) : Direction.ofCode d.code = some d := by cases d <;> rfl

theorem Style.code_of_ofCode {b : Byte} {st : Style} (h : Style.ofCode b = some st) : st.code = b := by
  unfold Style.ofCode at h
  repeat' split at h
  all_goals first | cases h; simp_all [Style.code] | cases h

theorem Style.ofCode_code (st : Style) : Style.ofCode st.code = some st := by cases st <;> rfl

theorem unlessReserved_eq_instr {n : Nat} {x : BitVec n} {d : Decoded} {i : Instr}
    (h : unlessReserved x d = .instr i) : x = 0 ∧ d = .instr i := by
  unfold unlessReserved at h
  split at h
  · exact ⟨by assumption, h⟩
  · cases h

theorem withDirStyle_eq_instr {w : CommandWord} {k : Direction → Style → Instr} {i : Instr}
    (h : withDirStyle w k = .instr i) :
    ∃ d st, i = k d st ∧ d.code = dirField w ∧ st.code = styleField w := by
  unfold withDirStyle at h
  cases hd : Direction.ofCode (dirField w) with
  | none => rw [hd] at h; cases h
  | some d =>
    cases hs : Style.ofCode (styleField w) with
    | none => rw [hd, hs] at h; cases h
    | some st =>
      rw [hd, hs] at h
      injection h with h
      exact ⟨d, st, h.symm, Direction.code_of_ofCode hd, Style.code_of_ofCode hs⟩

theorem decodeSetChannel_eq_instr {w : CommandWord} {i : Instr} (h : decodeSetChannel w = .instr i) :
    i = .setChannel (styleField w) (onField w) (low16Field w) ∧ i.wellFormed = true := by
  unfold decodeSetChannel at h
  by_cases h1 : channelInRange (styleField w) = true
  · by_cases h2 : (dutyInRange (onField w) && dutyInRange (low16Field w)) = true
    · rw [if_pos h1, if_pos h2] at h
      injection h with h
      subst h
      simp only [Bool.and_eq_true] at h2
      simp [Instr.wellFormed, h1, h2]
    · rw [if_pos h1, if_neg h2] at h; cases h
  · rw [if_neg h1] at h; cases h

theorem decodeSetAll_eq_instr {w : CommandWord} {i : Instr} (h : decodeSetAll w = .instr i) :
    i = .setAll (onField w) (low16Field w) ∧ i.wellFormed = true := by
  unfold decodeSetAll at h
  by_cases h2 : (dutyInRange (onField w) && dutyInRange (low16Field w)) = true
  · rw [if_pos h2] at h
    injection h with h
    subst h
    simp only [Bool.and_eq_true] at h2
    simp [Instr.wellFormed, h2]
  · rw [if_neg h2] at h; cases h

/-! ### Which words are illegal -/

theorem Direction.ofCode_eq_none {b : Byte} (h : Direction.ofCode b = none) : b.toNat ≠ 1 ∧ b.toNat ≠ 2 := by
  refine ⟨?_, ?_⟩ <;> intro hb
  · rw [show b = 1 from BitVec.eq_of_toNat_eq hb] at h; cases h
  · rw [show b = 2 from BitVec.eq_of_toNat_eq hb] at h; cases h

theorem Style.ofCode_eq_none {b : Byte} (h : Style.ofCode b = none) : b.toNat = 0 ∨ 4 < b.toNat := by
  by_contra hc
  obtain hb | hb | hb | hb : b.toNat = 1 ∨ b.toNat = 2 ∨ b.toNat = 3 ∨ b.toNat = 4 := by omega
  · rw [show b = 1 from BitVec.eq_of_toNat_eq hb] at h; cases h
  · rw [show b = 2 from BitVec.eq_of_toNat_eq hb] at h; cases h
  · rw [show b = 3 from BitVec.eq_of_toNat_eq hb] at h; cases h
  · rw [show b = 4 from BitVec.eq_of_toNat_eq hb] at h; cases h

theorem Direction.toNat_code (d : Direction) : d.code.toNat = 1 ∨ d.code.toNat = 2 := by cases d <;> decide

theorem Style.toNat_code (st : Style) : st.code.toNat ≠ 0 ∧ st.code.toNat ≤ 4 := by cases st <;> decide

/-- The decoding refuses its word. -/
def Decoded.isIllegal : Decoded → Bool
  | .instr _ => false
  | .illegal _ => true

theorem unlessReserved_isIllegal {n : Nat} (x : BitVec n) (d : Decoded) :
    (unlessReserved x d).isIllegal = (x != 0 || d.isIllegal) := by
  unfold unlessReserved
  split <;> simp_all [Decoded.isIllegal]

theorem withDirStyle_isIllegal (w : CommandWord) (k : Direction → Style → Instr) :
    (withDirStyle w k).isIllegal = (badDirCode w || badStyleCode w) := by
  change _ = ((!((dirField w).toNat == 1 || (dirField w).toNat == 2)) ||
    ((styleField w).toNat == 0 || decide (4 < (styleField w).toNat)))
  unfold withDirStyle
  generalize dirField w = d
  generalize styleField w = st
  cases hd : Direction.ofCode d with
  | none =>
    obtain ⟨h1, h2⟩ := Direction.ofCode_eq_none hd
    simp [Decoded.isIllegal, h1, h2]
  | some d' =>
    rw [← Direction.code_of_ofCode hd]
    have h1 := d'.toNat_code
    cases hs : Style.ofCode st with
    | none => have h2 := Style.ofCode_eq_none hs; simp [Decoded.isIllegal]; omega
    | some st' =>
      rw [← Style.code_of_ofCode hs]
      have h2 := st'.toNat_code
      simp [Decoded.isIllegal]; omega

theorem decodeSetChannel_isIllegal (w : CommandWord) :
    (decodeSetChannel w).isIllegal = (decide (15 < (styleField w).toNat) || badDutyField w) := by
  change _ = (_ || (decide (4096 < (onField w).toNat) || decide (4096 < (low16Field w).toNat)))
  unfold decodeSetChannel channelInRange dutyInRange
  generalize (styleField w).toNat = a, (onField w).toNat = b, (low16Field w).toNat = c
  by_cases h1 : a ≤ 15 <;> by_cases h2 : b ≤ 4096 <;> by_cases h3 : c ≤ 4096 <;>
    simp [h1, h2, h3, Decoded.isIllegal] <;> omega

theorem decodeSetAll_isIllegal (w : CommandWord) : (decodeSetAll w).isIllegal = badDutyField w := by
  change _ = (decide (4096 < (onField w).toNat) || decide (4096 < (low16Field w).toNat))
  unfold decodeSetAll dutyInRange
  generalize (onField w).toNat = b, (low16Field w).toNat = c
  by_cases h2 : b ≤ 4096 <;> by_cases h3 : c ≤ 4096 <;> simp [h2, h3, Decoded.isIllegal] <;> omega

end Sys2Proof
end

