-- ==== Sys2Proof/Laws/State.lean ====
section
/-! SUPPORT. What each update of State does to each field, so that no proof unfolds a record update. -/

namespace Sys2Proof.Machine

variable (s : State)

@[simp] theorem record_phase1 (e : Event) : (s.record e).phase1 = s.phase1 := rfl
@[simp] theorem record_phase2 (e : Event) : (s.record e).phase2 = s.phase2 := rfl
@[simp] theorem record_rpm1 (e : Event) : (s.record e).rpm1 = s.rpm1 := rfl
@[simp] theorem record_rpm2 (e : Event) : (s.record e).rpm2 = s.rpm2 := rfl
@[simp] theorem record_initialized (e : Event) : (s.record e).initialized = s.initialized := rfl
@[simp] theorem record_freqHz (e : Event) : (s.record e).freqHz = s.freqHz := rfl
@[simp] theorem record_prescale (e : Event) : (s.record e).prescale = s.prescale := rfl
@[simp] theorem record_position (e : Event) : (s.record e).position = s.position := rfl
@[simp] theorem record_held (e : Event) : (s.record e).held = s.held := rfl
@[simp] theorem record_params (e : Event) : (s.record e).params = s.params := rfl
@[simp] theorem record_bus (e : Event) : (s.record e).bus = s.bus.advance := rfl
@[simp] theorem record_img (e : Event) : (s.record e).img = s.img := rfl
@[simp] theorem record_commands (e : Event) : (s.record e).commands = s.commands := rfl
@[simp] theorem record_trace (e : Event) : (s.record e).trace = s.trace ++ [e] := rfl
@[simp] theorem record_responses (e : Event) : (s.record e).responses = s.responses := rfl

@[simp] theorem waitMs_phase1 (ms : Nat) : (waitMs ms s).phase1 = s.phase1 := rfl
@[simp] theorem waitMs_phase2 (ms : Nat) : (waitMs ms s).phase2 = s.phase2 := rfl
@[simp] theorem waitMs_rpm1 (ms : Nat) : (waitMs ms s).rpm1 = s.rpm1 := rfl
@[simp] theorem waitMs_rpm2 (ms : Nat) : (waitMs ms s).rpm2 = s.rpm2 := rfl
@[simp] theorem waitMs_initialized (ms : Nat) : (waitMs ms s).initialized = s.initialized := rfl
@[simp] theorem waitMs_freqHz (ms : Nat) : (waitMs ms s).freqHz = s.freqHz := rfl
@[simp] theorem waitMs_prescale (ms : Nat) : (waitMs ms s).prescale = s.prescale := rfl
@[simp] theorem waitMs_position (ms : Nat) : (waitMs ms s).position = s.position := rfl
@[simp] theorem waitMs_held (ms : Nat) : (waitMs ms s).held = s.held := rfl
@[simp] theorem waitMs_params (ms : Nat) : (waitMs ms s).params = s.params := rfl
@[simp] theorem waitMs_bus (ms : Nat) : (waitMs ms s).bus = s.bus := rfl
@[simp] theorem waitMs_img (ms : Nat) : (waitMs ms s).img = s.img := rfl
@[simp] theorem waitMs_commands (ms : Nat) : (waitMs ms s).commands = s.commands := rfl
@[simp] theorem waitMs_trace (ms : Nat) : (waitMs ms s).trace = s.trace ++ [.wait ms] := rfl
@[simp] theorem waitMs_responses (ms : Nat) : (waitMs ms s).responses = s.responses := rfl

@[simp] theorem respond_phase1 (st : Status) (r : Byte) : (respond st r s).phase1 = s.phase1 := rfl
@[simp] theorem respond_phase2 (st : Status) (r : Byte) : (respond st r s).phase2 = s.phase2 := rfl
@[simp] theorem respond_rpm1 (st : Status) (r : Byte) : (respond st r s).rpm1 = s.rpm1 := rfl
@[simp] theorem respond_rpm2 (st : Status) (r : Byte) : (respond st r s).rpm2 = s.rpm2 := rfl
@[simp] theorem respond_initialized (st : Status) (r : Byte) : (respond st r s).initialized = s.initialized := rfl
@[simp] theorem respond_freqHz (st : Status) (r : Byte) : (respond st r s).freqHz = s.freqHz := rfl
@[simp] theorem respond_prescale (st : Status) (r : Byte) : (respond st r s).prescale = s.prescale := rfl
@[simp] theorem respond_position (st : Status) (r : Byte) : (respond st r s).position = .idle := rfl
@[simp] theorem respond_held (st : Status) (r : Byte) : (respond st r s).held = s.held := rfl
@[simp] theorem respond_params (st : Status) (r : Byte) : (respond st r s).params = s.params := rfl
@[simp] theorem respond_bus (st : Status) (r : Byte) : (respond st r s).bus = s.bus := rfl
@[simp] theorem respond_img (st : Status) (r : Byte) : (respond st r s).img = s.img := rfl
@[simp] theorem respond_commands (st : Status) (r : Byte) : (respond st r s).commands = s.commands := rfl
@[simp] theorem respond_trace (st : Status) (r : Byte) : (respond st r s).trace = s.trace := rfl
@[simp] theorem respond_responses (st : Status) (r : Byte) : (respond st r s).responses = s.responses ++ [responseWord st r] := rfl

@[simp] theorem answered_phase1 (r : Word16) : (s.answered r).phase1 = s.phase1 := rfl
@[simp] theorem answered_phase2 (r : Word16) : (s.answered r).phase2 = s.phase2 := rfl
@[simp] theorem answered_rpm1 (r : Word16) : (s.answered r).rpm1 = s.rpm1 := rfl
@[simp] theorem answered_rpm2 (r : Word16) : (s.answered r).rpm2 = s.rpm2 := rfl
@[simp] theorem answered_initialized (r : Word16) : (s.answered r).initialized = s.initialized := rfl
@[simp] theorem answered_freqHz (r : Word16) : (s.answered r).freqHz = s.freqHz := rfl
@[simp] theorem answered_prescale (r : Word16) : (s.answered r).prescale = s.prescale := rfl
@[simp] theorem answered_position (r : Word16) : (s.answered r).position = s.position := rfl
@[simp] theorem answered_held (r : Word16) : (s.answered r).held = s.held := rfl
@[simp] theorem answered_params (r : Word16) : (s.answered r).params = s.params := rfl
@[simp] theorem answered_bus (r : Word16) : (s.answered r).bus = s.bus := rfl
@[simp] theorem answered_img (r : Word16) : (s.answered r).img = s.img := rfl
@[simp] theorem answered_commands (r : Word16) : (s.answered r).commands = s.commands := rfl
@[simp] theorem answered_trace (r : Word16) : (s.answered r).trace = s.trace := rfl
@[simp] theorem answered_responses (r : Word16) : (s.answered r).responses = s.responses ++ [r] := rfl

@[simp] theorem wrote_phase1 (ws : List (Byte × Byte)) : (s.wrote ws).phase1 = s.phase1 := rfl
@[simp] theorem wrote_phase2 (ws : List (Byte × Byte)) : (s.wrote ws).phase2 = s.phase2 := rfl
@[simp] theorem wrote_rpm1 (ws : List (Byte × Byte)) : (s.wrote ws).rpm1 = s.rpm1 := rfl
@[simp] theorem wrote_rpm2 (ws : List (Byte × Byte)) : (s.wrote ws).rpm2 = s.rpm2 := rfl
@[simp] theorem wrote_initialized (ws : List (Byte × Byte)) : (s.wrote ws).initialized = s.initialized := rfl
@[simp] theorem wrote_freqHz (ws : List (Byte × Byte)) : (s.wrote ws).freqHz = s.freqHz := rfl
@[simp] theorem wrote_prescale (ws : List (Byte × Byte)) : (s.wrote ws).prescale = s.prescale := rfl
@[simp] theorem wrote_position (ws : List (Byte × Byte)) : (s.wrote ws).position = s.position := rfl
@[simp] theorem wrote_held (ws : List (Byte × Byte)) : (s.wrote ws).held = s.held := rfl
@[simp] theorem wrote_params (ws : List (Byte × Byte)) : (s.wrote ws).params = s.params := rfl
@[simp] theorem wrote_bus (ws : List (Byte × Byte)) : (s.wrote ws).bus = s.bus.advanceBy ws.length := rfl
@[simp] theorem wrote_img (ws : List (Byte × Byte)) : (s.wrote ws).img = s.img.writes ws := rfl
@[simp] theorem wrote_commands (ws : List (Byte × Byte)) : (s.wrote ws).commands = s.commands := rfl
@[simp] theorem wrote_trace (ws : List (Byte × Byte)) : (s.wrote ws).trace = s.trace ++ ws.map fun w => .write w.1 w.2 := rfl
@[simp] theorem wrote_responses (ws : List (Byte × Byte)) : (s.wrote ws).responses = s.responses := rfl

@[simp] theorem busFailed_phase1 (w : Byte × Byte) : (s.busFailed w).phase1 = s.phase1 := rfl
@[simp] theorem busFailed_phase2 (w : Byte × Byte) : (s.busFailed w).phase2 = s.phase2 := rfl
@[simp] theorem busFailed_rpm1 (w : Byte × Byte) : (s.busFailed w).rpm1 = s.rpm1 := rfl
@[simp] theorem busFailed_rpm2 (w : Byte × Byte) : (s.busFailed w).rpm2 = s.rpm2 := rfl
@[simp] theorem busFailed_initialized (w : Byte × Byte) : (s.busFailed w).initialized = s.initialized := rfl
@[simp] theorem busFailed_freqHz (w : Byte × Byte) : (s.busFailed w).freqHz = s.freqHz := rfl
@[simp] theorem busFailed_prescale (w : Byte × Byte) : (s.busFailed w).prescale = s.prescale := rfl
@[simp] theorem busFailed_position (w : Byte × Byte) : (s.busFailed w).position = s.position := rfl
@[simp] theorem busFailed_held (w : Byte × Byte) : (s.busFailed w).held = s.held := rfl
@[simp] theorem busFailed_params (w : Byte × Byte) : (s.busFailed w).params = s.params := rfl
@[simp] theorem busFailed_bus (w : Byte × Byte) : (s.busFailed w).bus = s.bus.advance := rfl
@[simp] theorem busFailed_img (w : Byte × Byte) : (s.busFailed w).img = s.img := rfl
@[simp] theorem busFailed_commands (w : Byte × Byte) : (s.busFailed w).commands = s.commands := rfl
@[simp] theorem busFailed_trace (w : Byte × Byte) : (s.busFailed w).trace = s.trace ++ [.failedWrite w.1 w.2] := rfl
@[simp] theorem busFailed_responses (w : Byte × Byte) : (s.busFailed w).responses = s.responses ++ [0x01#8 ++ w.1] := rfl

@[simp] theorem setPhase_rpm1 (a : Axis) (v : Phase) : (s.setPhase a v).rpm1 = s.rpm1 := by cases a <;> rfl
@[simp] theorem setPhase_rpm2 (a : Axis) (v : Phase) : (s.setPhase a v).rpm2 = s.rpm2 := by cases a <;> rfl
@[simp] theorem setPhase_initialized (a : Axis) (v : Phase) : (s.setPhase a v).initialized = s.initialized := by cases a <;> rfl
@[simp] theorem setPhase_freqHz (a : Axis) (v : Phase) : (s.setPhase a v).freqHz = s.freqHz := by cases a <;> rfl
@[simp] theorem setPhase_prescale (a : Axis) (v : Phase) : (s.setPhase a v).prescale = s.prescale := by cases a <;> rfl
@[simp] theorem setPhase_position (a : Axis) (v : Phase) : (s.setPhase a v).position = s.position := by cases a <;> rfl
@[simp] theorem setPhase_held (a : Axis) (v : Phase) : (s.setPhase a v).held = s.held := by cases a <;> rfl
@[simp] theorem setPhase_params (a : Axis) (v : Phase) : (s.setPhase a v).params = s.params := by cases a <;> rfl
@[simp] theorem setPhase_bus (a : Axis) (v : Phase) : (s.setPhase a v).bus = s.bus := by cases a <;> rfl
@[simp] theorem setPhase_img (a : Axis) (v : Phase) : (s.setPhase a v).img = s.img := by cases a <;> rfl
@[simp] theorem setPhase_commands (a : Axis) (v : Phase) : (s.setPhase a v).commands = s.commands := by cases a <;> rfl
@[simp] theorem setPhase_trace (a : Axis) (v : Phase) : (s.setPhase a v).trace = s.trace := by cases a <;> rfl
@[simp] theorem setPhase_responses (a : Axis) (v : Phase) : (s.setPhase a v).responses = s.responses := by cases a <;> rfl

@[simp] theorem setRpm_phase1 (a : Axis) (v : Word16) : (s.setRpm a v).phase1 = s.phase1 := by cases a <;> rfl
@[simp] theorem setRpm_phase2 (a : Axis) (v : Word16) : (s.setRpm a v).phase2 = s.phase2 := by cases a <;> rfl
@[simp] theorem setRpm_initialized (a : Axis) (v : Word16) : (s.setRpm a v).initialized = s.initialized := by cases a <;> rfl
@[simp] theorem setRpm_freqHz (a : Axis) (v : Word16) : (s.setRpm a v).freqHz = s.freqHz := by cases a <;> rfl
@[simp] theorem setRpm_prescale (a : Axis) (v : Word16) : (s.setRpm a v).prescale = s.prescale := by cases a <;> rfl
@[simp] theorem setRpm_position (a : Axis) (v : Word16) : (s.setRpm a v).position = s.position := by cases a <;> rfl
@[simp] theorem setRpm_held (a : Axis) (v : Word16) : (s.setRpm a v).held = s.held := by cases a <;> rfl
@[simp] theorem setRpm_params (a : Axis) (v : Word16) : (s.setRpm a v).params = s.params := by cases a <;> rfl
@[simp] theorem setRpm_bus (a : Axis) (v : Word16) : (s.setRpm a v).bus = s.bus := by cases a <;> rfl
@[simp] theorem setRpm_img (a : Axis) (v : Word16) : (s.setRpm a v).img = s.img := by cases a <;> rfl
@[simp] theorem setRpm_commands (a : Axis) (v : Word16) : (s.setRpm a v).commands = s.commands := by cases a <;> rfl
@[simp] theorem setRpm_trace (a : Axis) (v : Word16) : (s.setRpm a v).trace = s.trace := by cases a <;> rfl
@[simp] theorem setRpm_responses (a : Axis) (v : Word16) : (s.setRpm a v).responses = s.responses := by cases a <;> rfl

@[simp] theorem record_phase (e : Event) (a : Axis) : (s.record e).phase a = s.phase a := by cases a <;> rfl
@[simp] theorem waitMs_phase (ms : Nat) (a : Axis) : (waitMs ms s).phase a = s.phase a := by cases a <;> rfl
@[simp] theorem respond_phase (st : Status) (r : Byte) (a : Axis) : (respond st r s).phase a = s.phase a := by cases a <;> rfl
@[simp] theorem answered_phase (r : Word16) (a : Axis) : (s.answered r).phase a = s.phase a := by cases a <;> rfl
@[simp] theorem wrote_phase (ws : List (Byte × Byte)) (a : Axis) : (s.wrote ws).phase a = s.phase a := by cases a <;> rfl
@[simp] theorem busFailed_phase (w : Byte × Byte) (a : Axis) : (s.busFailed w).phase a = s.phase a := by cases a <;> rfl

@[simp] theorem record_rpm (e : Event) (a : Axis) : (s.record e).rpm a = s.rpm a := by cases a <;> rfl
@[simp] theorem waitMs_rpm (ms : Nat) (a : Axis) : (waitMs ms s).rpm a = s.rpm a := by cases a <;> rfl
@[simp] theorem respond_rpm (st : Status) (r : Byte) (a : Axis) : (respond st r s).rpm a = s.rpm a := by cases a <;> rfl
@[simp] theorem answered_rpm (r : Word16) (a : Axis) : (s.answered r).rpm a = s.rpm a := by cases a <;> rfl
@[simp] theorem wrote_rpm (ws : List (Byte × Byte)) (a : Axis) : (s.wrote ws).rpm a = s.rpm a := by cases a <;> rfl
@[simp] theorem busFailed_rpm (w : Byte × Byte) (a : Axis) : (s.busFailed w).rpm a = s.rpm a := by cases a <;> rfl

@[simp] theorem setPhase_rpm (a : Axis) (v : Phase) (b : Axis) : (s.setPhase a v).rpm b = s.rpm b := by
  cases a <;> cases b <;> rfl

@[simp] theorem setRpm_phase (a : Axis) (v : Word16) (b : Axis) : (s.setRpm a v).phase b = s.phase b := by
  cases a <;> cases b <;> rfl

@[simp] theorem setPhase_phase_same (a : Axis) (v : Phase) : (s.setPhase a v).phase a = v := by cases a <;> rfl

theorem setPhase_phase_other {a b : Axis} (h : a ≠ b) (v : Phase) : (s.setPhase a v).phase b = s.phase b := by
  cases a <;> cases b <;> first | rfl | exact absurd rfl h

@[simp] theorem setRpm_rpm_same (a : Axis) (v : Word16) : (s.setRpm a v).rpm a = v := by cases a <;> rfl

theorem setRpm_rpm_other {a b : Axis} (h : a ≠ b) (v : Word16) : (s.setRpm a v).rpm b = s.rpm b := by
  cases a <;> cases b <;> first | rfl | exact absurd rfl h

@[simp] theorem raise_eq (e : Status) (info : Byte) : raise e info s = respond e info s := rfl

@[simp] theorem setPhase_setPhase (a : Axis) (v w : Phase) : (s.setPhase a v).setPhase a w = s.setPhase a w := by
  cases a <;> rfl

@[simp] theorem setPhase_self (a : Axis) : s.setPhase a (s.phase a) = s := by cases a <;> rfl

theorem wrote_setPhase (a : Axis) (v : Phase) (ws : List (Byte × Byte)) :
    (s.wrote ws).setPhase a v = (s.setPhase a v).wrote ws := by cases a <;> rfl

end Sys2Proof.Machine
end

