-- ==== Sys2Proof/Laws/Memory.lean ====
section
/-! SUPPORT. The device image: reads after writes, and every operation keeps the canonical form. -/

namespace Sys2Proof.Machine

theorem Memory.read_write (m : Memory) (a : Nat) (v : Byte) (b : Nat) :
    (m.write a v).read b = if b = a then some v else m.read b := by
  induction m with
  | nil => simp [Memory.write, Memory.read]
  | cons c m ih =>
    obtain ⟨k, u⟩ := c
    simp only [Memory.write]
    split
    · simp [Memory.read]
    · split
      · subst a
        simp only [Memory.read]
        split <;> rfl
      · simp only [Memory.read, ih]
        split <;> split <;> simp_all

theorem Memory.read_write_same (m : Memory) (a : Nat) (v : Byte) : (m.write a v).read a = some v := by
  simp [Memory.read_write]

theorem Memory.read_write_other (m : Memory) {a b : Nat} (v : Byte) (h : b ≠ a) :
    (m.write a v).read b = m.read b := by simp [Memory.read_write, h]

theorem Memory.wfFrom_write {m : Memory} {lo a : Nat} (v : Byte) (hm : Memory.wfFrom lo m = true) (hlo : lo ≤ a)
    (ha : a < 256) : Memory.wfFrom lo (m.write a v) = true := by
  induction m generalizing lo with
  | nil => simp [Memory.write, Memory.wfFrom, hlo, ha]
  | cons c m ih =>
    obtain ⟨k, u⟩ := c
    simp only [Memory.wfFrom, Bool.and_eq_true, decide_eq_true_eq] at hm
    simp only [Memory.write]
    split
    · simp [Memory.wfFrom, hlo, ha, hm]; omega
    · split
      · subst a; simp [Memory.wfFrom, hm]
      · simp only [Memory.wfFrom, Bool.and_eq_true, decide_eq_true_eq]
        exact ⟨hm.1, ih hm.2 (by omega)⟩

theorem Memory.wf_write {m : Memory} (reg : Byte) (v : Byte) (hm : m.wf = true) : (m.write reg.toNat v).wf = true :=
  Memory.wfFrom_write v hm (Nat.zero_le _) reg.isLt

theorem Memory.wf_writes {m : Memory} (ws : List (Byte × Byte)) (hm : m.wf = true) : (m.writes ws).wf = true := by
  induction ws generalizing m with
  | nil => exact hm
  | cons w ws ih => exact ih (Memory.wf_write w.1 w.2 hm)

theorem Memory.wf_reset (p : Params) : (State.resetWith p).img.wf = true := rfl

theorem Memory.mem_write {m : Memory} {a : Nat} {v : Byte} {c : Host.Cell} (h : c ∈ m.write a v) :
    c = (a, v) ∨ c ∈ m := by
  induction m with
  | nil => simpa [Memory.write] using h
  | cons d m ih =>
    obtain ⟨k, u⟩ := d
    simp only [Memory.write] at h
    split at h
    · simpa using h
    · split at h
      · simp only [List.mem_cons] at h ⊢; tauto
      · simp only [List.mem_cons] at h ⊢; tauto

theorem Memory.writes_append (m : Memory) (xs ys : List (Byte × Byte)) :
    m.writes (xs ++ ys) = (m.writes xs).writes ys := List.foldl_append

theorem Memory.read_writes_other (m : Memory) {ws : List (Byte × Byte)} {reg : Byte}
    (h : ∀ w ∈ ws, w.1 ≠ reg) : (m.writes ws).read reg.toNat = m.read reg.toNat := by
  induction ws generalizing m with
  | nil => rfl
  | cons w ws ih =>
    have hw : reg.toNat ≠ w.1.toNat := fun e => h w (by simp) (BitVec.eq_of_toNat_eq e.symm)
    rw [Memory.writes, List.foldl_cons]
    exact (ih _ (fun x hx => h x (by simp [hx]))).trans (Memory.read_write_other m _ hw)

end Sys2Proof.Machine
end

