-- ==== Sys2Proof/Laws/Ops.lean ====
section
/-! SUPPORT. What each operation does, said once: the oracle, one line, a list of lines, and a list of writes. -/

namespace Sys2Proof.Machine

/-! ### The oracle -/

theorem busAnswer_eq_fail_iff (s : State) (reg : Byte) : s.busAnswer reg = .fail ↔ s.bus.succeeds = false := by
  unfold State.busAnswer Bus.succeeds
  cases s.bus.choice <;> simp

theorem busAnswer_eq_ok {s : State} (reg : Byte) (h : s.bus.succeeds = true) : ∃ b, s.busAnswer reg = .ok b := by
  cases hb : s.busAnswer reg with
  | fail => simp [(busAnswer_eq_fail_iff s reg).mp hb] at h
  | ok b => exact ⟨b, rfl⟩

theorem advanceBy_zero (b : Bus) : b.advanceBy 0 = b := by simp [Bus.advanceBy]

theorem advanceBy_succ (b : Bus) (n : Nat) : b.advanceBy (n + 1) = b.advance.advanceBy n := by
  simp only [Bus.advanceBy, Bus.advance, List.drop_tail, Bus.mk.injEq, true_and]
  omega

theorem advanceBy_one (b : Bus) : b.advanceBy 1 = b.advance := by rw [advanceBy_succ, advanceBy_zero]

theorem advanceBy_advanceBy (b : Bus) (m n : Nat) : (b.advanceBy m).advanceBy n = b.advanceBy (m + n) := by
  simp only [Bus.advanceBy, List.drop_drop, Bus.mk.injEq, true_and]
  omega

theorem okFor_add (b : Bus) (m n : Nat) : b.okFor (m + n) = (b.okFor m && (b.advanceBy m).okFor n) := by
  induction m generalizing b with
  | zero => simp [Bus.okFor, advanceBy_zero]
  | succ m ih => simp [Nat.succ_add, Bus.okFor, ih, advanceBy_succ, Bool.and_assoc]

/-- Either the next `n` transactions succeed, or a first one of them fails. -/
theorem okFor_or_failsAfter (b : Bus) (n : Nat) : b.okFor n = true ∨ ∃ k < n, b.failsAfter k = true := by
  induction n with
  | zero => exact .inl rfl
  | succ n ih =>
    obtain h | ⟨k, hk, hf⟩ := ih
    · cases hs : (b.advanceBy n).succeeds with
      | true => left; rw [okFor_add]; simp [h, Bus.okFor, hs]
      | false => exact .inr ⟨n, by omega, by simp [Bus.failsAfter, h, hs]⟩
    · exact .inr ⟨k, by omega, hf⟩

theorem failsAfter_zero (b : Bus) : b.failsAfter 0 = !b.succeeds := by
  simp [Bus.failsAfter, Bus.okFor, advanceBy_zero]

theorem failsAfter_succ (b : Bus) (k : Nat) : b.failsAfter (k + 1) = (b.succeeds && b.advance.failsAfter k) := by
  simp [Bus.failsAfter, Bus.okFor, advanceBy_succ, Bool.and_assoc]

theorem failsAfter_add (b : Bus) (m k : Nat) :
    b.failsAfter (m + k) = (b.okFor m && (b.advanceBy m).failsAfter k) := by
  simp [Bus.failsAfter, okFor_add, advanceBy_advanceBy, Bool.and_assoc]

/-! ### Successful writes -/

theorem wrote_nil (s : State) : s.wrote [] = s := by
  simp [State.wrote, advanceBy_zero, Memory.writes]

theorem wrote_wrote (s : State) (xs ys : List (Byte × Byte)) : (s.wrote xs).wrote ys = s.wrote (xs ++ ys) := by
  simp [State.wrote, advanceBy_advanceBy, Memory.writes_append]

/-! ### The bus primitives -/

theorem busWrite_of_succeeds {s : State} (reg : DevReg) (b : Byte) (h : s.bus.succeeds = true) :
    busWrite reg b s = .done (s.wrote [(reg.offset, b)]) := by
  obtain ⟨v, hv⟩ := busAnswer_eq_ok reg.offset h
  simp [busWrite, hv, State.record, State.wrote, advanceBy_one, Memory.writes]

theorem busWrite_of_fails {s : State} (reg : DevReg) (b : Byte) (h : s.bus.succeeds = false) :
    busWrite reg b s = .failed (s.record (.failedWrite reg.offset b)) reg.offset := by
  simp [busWrite, (busAnswer_eq_fail_iff s reg.offset).mpr h]

theorem busReadMode1_of_succeeds {s : State} (h : s.bus.succeeds = true) :
    ∃ b, busReadMode1 s = .done { s.record (.read 0x00 b) with held := b } := by
  obtain ⟨v, hv⟩ := busAnswer_eq_ok DevReg.mode1.offset h
  exact ⟨v, by simp [busReadMode1, hv]; rfl⟩

theorem busReadMode1_of_fails {s : State} (h : s.bus.succeeds = false) :
    busReadMode1 s = .failed (s.record (.failedRead 0x00)) 0x00 := by
  simp [busReadMode1, (busAnswer_eq_fail_iff s _).mpr h]; exact ⟨rfl, rfl⟩

/-! ### Lists of lines -/

@[simp] theorem andThen_done (s : State) (f : State → OpResult) : (OpResult.done s).andThen f = f s := rfl

@[simp] theorem andThen_failed (s : State) (reg : Byte) (f : State → OpResult) :
    (OpResult.failed s reg).andThen f = .failed s reg := rfl

theorem andThen_assoc (r : OpResult) (f g : State → OpResult) :
    (r.andThen f).andThen g = r.andThen fun s => (f s).andThen g := by cases r <;> rfl

@[simp] theorem runOps_nil (s : State) : runOps [] s = .done s := rfl

@[simp] theorem runOps_cons (op : MicroOp) (ops : List MicroOp) (s : State) :
    runOps (op :: ops) s = (op.perform s).andThen (runOps ops) := rfl

theorem runOps_append (xs ys : List MicroOp) (s : State) :
    runOps (xs ++ ys) s = (runOps xs s).andThen (runOps ys) := by
  induction xs generalizing s with
  | nil => rfl
  | cons op xs ih =>
    simp only [List.cons_append, runOps_cons, andThen_assoc]
    congr 1
    funext s'
    exact ih s'

/-- The lines that write these bytes. -/
def writeLines (ws : List (DevReg × Byte)) : List MicroOp := ws.map fun w => writeByte w.1 w.2

/-- The (offset, byte) pairs of these writes. -/
def offsetsOf (ws : List (DevReg × Byte)) : List (Byte × Byte) := ws.map fun w => (w.1.offset, w.2)

/-- Writes all of which succeed. -/
theorem runOps_writeLines_ok (ws : List (DevReg × Byte)) (s : State) (h : s.bus.okFor ws.length = true) :
    runOps (writeLines ws) s = .done (s.wrote (offsetsOf ws)) := by
  induction ws generalizing s with
  | nil => simp [writeLines, offsetsOf, wrote_nil]
  | cons w ws ih =>
    simp only [List.length_cons, Bus.okFor, Bool.and_eq_true] at h
    have hw : (writeByte w.1 w.2).perform s = .done (s.wrote [(w.1.offset, w.2)]) :=
      busWrite_of_succeeds w.1 w.2 h.1
    have hr := ih (s.wrote [(w.1.offset, w.2)]) (by simpa [advanceBy_one] using h.2)
    simp only [writeLines, List.map_cons, runOps_cons, hw, andThen_done]
    exact hr.trans (by rw [wrote_wrote]; rfl)

/-- Writes of which one fails: those before it have succeeded, and it is the last. -/
theorem runOps_writeLines_failsAfter (ws : List (DevReg × Byte)) (s : State) (k : Nat) (w : Byte × Byte)
    (hw : (offsetsOf ws)[k]? = some w) (h : s.bus.failsAfter k = true) :
    runOps (writeLines ws) s =
      .failed ((s.wrote ((offsetsOf ws).take k)).record (.failedWrite w.1 w.2)) w.1 := by
  induction ws generalizing s k with
  | nil => simp [offsetsOf] at hw
  | cons x ws ih =>
    cases k with
    | zero =>
      simp only [offsetsOf, List.map_cons, List.getElem?_cons_zero, Option.some.injEq] at hw
      subst hw
      simp only [failsAfter_zero, Bool.not_eq_true'] at h
      have hx : (writeByte x.1 x.2).perform s = .failed (s.record (.failedWrite x.1.offset x.2)) x.1.offset :=
        busWrite_of_fails x.1 x.2 h
      simp [writeLines, hx, wrote_nil]
    | succ k =>
      simp only [failsAfter_succ, Bool.and_eq_true] at h
      have hx : (writeByte x.1 x.2).perform s = .done (s.wrote [(x.1.offset, x.2)]) :=
        busWrite_of_succeeds x.1 x.2 h.1
      have hr := ih (s.wrote [(x.1.offset, x.2)]) k (by simpa [offsetsOf] using hw)
        (by simpa [advanceBy_one] using h.2)
      simp only [writeLines, List.map_cons, runOps_cons, hx, andThen_done]
      refine hr.trans ?_
      rw [wrote_wrote]
      rfl

/-! ### Everything one line, and a list of lines, can do -/

/-- The state in which a line or a list of lines ends, done or failed. -/
def OpResult.state : OpResult → State
  | .done s => s
  | .failed s _ => s

/-- A line leaves alone what only the end of a command, the host or construction writes, and adds at most one event to
the trace. -/
theorem perform_keeps (op : MicroOp) (s : State) :
    (op.perform s).state.position = s.position ∧ (op.perform s).state.params = s.params ∧
    (op.perform s).state.commands = s.commands ∧ (op.perform s).state.responses = s.responses ∧
    ((op.perform s).state.trace = s.trace ∨ ∃ e, (op.perform s).state.trace = s.trace ++ [e]) := by
  cases op with
  | write reg src => cases h : s.busAnswer reg.offset <;> simp [MicroOp.perform, busWrite, h, OpResult.state]
  | readMode1 =>
    cases h : s.busAnswer DevReg.mode1.offset <;> simp [MicroOp.perform, busReadMode1, h, OpResult.state]
  | wait ms => simp [MicroOp.perform, OpResult.state]
  | setInitialized v => simp [MicroOp.perform, OpResult.state]
  | setFreq hz p => simp [MicroOp.perform, OpResult.state]
  | setRpm a v => simp [MicroOp.perform, OpResult.state]
  | setPhase a v => simp [MicroOp.perform, OpResult.state]

/-- A relation between states that every line meets, and that composes, is met by every list of lines. -/
theorem runOps_induct {R : State → State → Prop} (hrefl : ∀ s, R s s)
    (htrans : ∀ {s t u}, R s t → R t u → R s u) (ops : List MicroOp)
    (hop : ∀ op ∈ ops, ∀ s, R s (op.perform s).state) (s : State) : R s (runOps ops s).state := by
  induction ops generalizing s with
  | nil => exact hrefl s
  | cons op ops ih =>
    have h := hop op (by simp) s
    rw [runOps_cons]
    cases hp : op.perform s with
    | done s' => rw [hp] at h; exact htrans h (ih (fun o ho => hop o (by simp [ho])) s')
    | failed s' reg => rw [hp] at h; exact h

/-- The same for STEP's iterations. -/
theorem repeatSteps_induct {R : State → State → Prop} (hrefl : ∀ s, R s s)
    (htrans : ∀ {s t u}, R s t → R t u → R s u) (a : Axis) (dir : Direction) (style : Style)
    (hstep : ∀ s, R s (oneStepBody a dir style s).state) (n : Nat) (s : State) :
    R s (repeatSteps a dir style n s).state := by
  induction n generalizing s with
  | zero => exact hrefl s
  | succ n ih =>
    have h := hstep s
    rw [repeatSteps]
    cases hp : oneStepBody a dir style s with
    | done s' => rw [hp] at h; exact htrans h (ih s')
    | failed s' reg => rw [hp] at h; exact h

/-- The state in which a command ends is that of its last line, with the block idle and one response more. -/
theorem closeCommand_eq (result : Byte) (r : OpResult) :
    ∃ st info, closeCommand result r = respond st info r.state ∧
      ((∃ s, r = .done s) ∧ st = .ok ∧ info = result ∨ ∃ s reg, r = .failed s reg ∧ st = .busError ∧ info = reg) := by
  cases r with
  | done s => exact ⟨.ok, result, rfl, .inl ⟨⟨s, rfl⟩, rfl, rfl⟩⟩
  | failed s reg => exact ⟨.busError, reg, rfl, .inr ⟨s, reg, rfl, rfl, rfl⟩⟩

/-! ### The shared sequences as lists of writes -/

theorem writeChannel_eq (ch : Channel) (on off : Word16) :
    writeChannel ch on off = writeLines [(.led ch .onL, dutyLow on), (.led ch .onH, dutyHigh on),
      (.led ch .offL, dutyLow off), (.led ch .offH, dutyHigh off)] := rfl

theorem writeAll_eq (on off : Word16) :
    writeAll on off = writeLines [(.allLed .onL, dutyLow on), (.allLed .onH, dutyHigh on),
      (.allLed .offL, dutyLow off), (.allLed .offH, dutyHigh off)] := rfl

theorem writeLines_append (xs ys : List (DevReg × Byte)) :
    writeLines (xs ++ ys) = writeLines xs ++ writeLines ys := List.map_append

theorem offsetsOf_append (xs ys : List (DevReg × Byte)) : offsetsOf (xs ++ ys) = offsetsOf xs ++ offsetsOf ys :=
  List.map_append

/-- The four registers of a channel block at their offsets (R90). -/
theorem led_offset (ch : Channel) (part : Part) :
    (DevReg.led ch part).offset = channelBase ch + BitVec.ofNat 8 part.index := by
  cases part <;> revert ch <;> decide

/-! ### Commands -/

theorem command_of_idle {s : State} (h : s.position = .idle) (v : Verdict) : command v s = .next (carryOut v s) := by
  simp [command, h]

/-- A command that answers a next state was handed to an idle block. -/
theorem command_eq_next {s t : State} {v : Verdict} (h : command v s = .next t) :
    s.position = .idle ∧ t = carryOut v s := by
  unfold command at h
  split at h
  · exact ⟨by assumption, by injection h with h; exact h.symm⟩
  · cases h

end Sys2Proof.Machine
end

