-- ==== Sys2Proof/Laws/Run.lean ====
section
/-! SUPPORT. What running a command does: nothing reads the in-command position, and a command of writes alone ends as
`State.writesEnd` says. -/

namespace Sys2Proof.Machine

/-- A result with its state at another in-command position. -/
def OpResult.at (r : OpResult) (p : Position) : OpResult :=
  match r with
  | .done s => .done { s with position := p }
  | .failed s reg => .failed { s with position := p } reg

theorem setPhase_at (s : State) (a : Axis) (v : Phase) (p : Position) :
    ({ s with position := p } : State).setPhase a v = { s.setPhase a v with position := p } := by cases a <;> rfl

theorem setRpm_at (s : State) (a : Axis) (v : Word16) (p : Position) :
    ({ s with position := p } : State).setRpm a v = { s.setRpm a v with position := p } := by cases a <;> rfl

/-- A line does not read the in-command position. -/
theorem perform_at (op : MicroOp) (s : State) (p : Position) :
    op.perform { s with position := p } = (op.perform s).at p := by
  cases op with
  | write reg src =>
    have h : ({ s with position := p } : State).busAnswer reg.offset = s.busAnswer reg.offset := rfl
    simp only [MicroOp.perform, busWrite, h]
    cases s.busAnswer reg.offset <;> rfl
  | readMode1 =>
    have h : ({ s with position := p } : State).busAnswer DevReg.mode1.offset = s.busAnswer DevReg.mode1.offset := rfl
    simp only [MicroOp.perform, busReadMode1, h]
    cases s.busAnswer DevReg.mode1.offset <;> rfl
  | wait ms => rfl
  | setInitialized v => rfl
  | setFreq hz q => rfl
  | setRpm a v => simp [MicroOp.perform, OpResult.at, setRpm_at]
  | setPhase a v => simp [MicroOp.perform, OpResult.at, setPhase_at]

theorem runOps_at (ops : List MicroOp) (s : State) (p : Position) :
    runOps ops { s with position := p } = (runOps ops s).at p := by
  induction ops generalizing s with
  | nil => rfl
  | cons op ops ih =>
    rw [runOps_cons, runOps_cons, perform_at]
    cases op.perform s with
    | done s' => exact ih s'
    | failed s' reg => rfl

theorem phase_at (s : State) (p : Position) (a : Axis) : ({ s with position := p } : State).phase a = s.phase a := by
  cases a <;> rfl

theorem repeatSteps_at (a : Axis) (dir : Direction) (style : Style) (n : Nat) (s : State) (p : Position) :
    repeatSteps a dir style n { s with position := p } = (repeatSteps a dir style n s).at p := by
  induction n generalizing s with
  | zero => rfl
  | succ n ih =>
    have h : oneStepBody a dir style { s with position := p } = (oneStepBody a dir style s).at p := by
      simp only [oneStepBody, oneStepOps, phase_at, runOps_at]
    rw [repeatSteps, repeatSteps, h]
    cases oneStepBody a dir style s with
    | done s' => exact ih s'
    | failed s' reg => rfl

theorem runLoop_at (loop : Option StepLoop) (s : State) (p : Position) :
    runLoop loop { s with position := p } = (runLoop loop s).at p := by
  cases loop with
  | none => rfl
  | some l => exact repeatSteps_at l.axis l.dir l.style l.left s p

theorem closeCommand_at (result : Byte) (r : OpResult) (p : Position) :
    closeCommand result (r.at p) = closeCommand result r := by cases r <;> rfl

/-- What a command runs to its response, from the state in which it was taken. -/
theorem carryOut_run (ops : List MicroOp) (loop : Option StepLoop) (result : Byte) (s : State) :
    carryOut (.run ops loop result) s = closeCommand result ((runOps ops s).andThen (runLoop loop)) := by
  simp only [carryOut, finish, runOps_at]
  cases h : runOps ops s with
  | done s' =>
    simp only [OpResult.at, andThen_done, runLoop_at]
    exact closeCommand_at result _ _
  | failed s' reg => rfl

theorem carryOut_run_none (ops : List MicroOp) (result : Byte) (s : State) :
    carryOut (.run ops none result) s = closeCommand result (runOps ops s) := by
  rw [carryOut_run]
  cases runOps ops s <;> rfl

theorem respond_ok_of_idle {s : State} (h : s.position = .idle) (ws : List (Byte × Byte)) (result : Byte) :
    respond .ok result (s.wrote ws) = (s.wrote ws).answered (0x00#8 ++ result) := by
  cases s; cases h; rfl

theorem respond_busError_of_idle {s : State} (h : s.position = .idle) (ws : List (Byte × Byte)) (w : Byte × Byte) :
    respond .busError w.1 ((s.wrote ws).record (.failedWrite w.1 w.2)) = (s.wrote ws).busFailed w := by
  cases s; cases h; rfl

/-- A command that is a list of writes ends as `State.writesEnd` says (R63, R232, R234). -/
theorem closeCommand_writeLines {s : State} (h : s.position = .idle) (ws : List (DevReg × Byte)) (result : Byte) :
    s.writesEnd (offsetsOf ws) (0x00#8 ++ result) (closeCommand result (runOps (writeLines ws) s)) := by
  constructor
  · intro hok
    rw [runOps_writeLines_ok ws s (by simpa [offsetsOf] using hok)]
    exact respond_ok_of_idle h _ _
  · intro k w hw hf
    rw [runOps_writeLines_failsAfter ws s k w hw hf]
    exact respond_busError_of_idle h _ _

end Sys2Proof.Machine
end

