-- ==== Sys2Proof/Laws/Exec.lean ====
section
/-! SUPPORT. Every command as its verdict, and what carrying out a verdict can do: the one case analysis from which the
whole-machine statements follow. -/

namespace Sys2Proof.Machine

/-- The verdict of a command's checks in a state, as its meaning computes it. -/
def verdictOf (i : Instr) (s : State) : Verdict :=
  match i with
  | .init hz => needPrescale hz fun p =>
      .run (.setInitialized false :: initSeq s.params ++ freqSeq s.params hz p ++ [.setInitialized true]) none 0
  | .setFreq hz => needInit s (needPrescale hz fun p => .run (freqSeq s.params hz p) none 0)
  | .setChannel ch on off => needLegal (channelInRange ch && dutyInRange on && dutyInRange off)
      (needInit s (.run (writeChannel (channelOfByte ch) on off) none 0))
  | .setAll on off => needLegal (dutyInRange on && dutyInRange off) (needInit s (.run (writeAll on off) none 0))
  | .setPin pin val => needInit s (
      if 15 < pin.toNat then .raise .invalidPin pin
      else if 1 < val.toNat then .raise .invalidPinValue val
      else .run (writePin (channelOfByte pin) (val == 1)) none 0)
  | .getStepper axis => needInit s (needAxis axis fun _ => .run [] none 0)
  | .setSpeed axis rpm => needInit s (needAxis axis fun a =>
      if rpm = 0 then .raise .invalidSpeed 0
      else .run (.setRpm a rpm :: writePin (s.params.pinMap a).pwma true ++ writePin (s.params.pinMap a).pwmb true)
        none 0)
  | .oneStep axis dir style => needInit s (needAxis axis fun a =>
      .run (oneStepOps a dir style s) none ((nextPhase dir style (s.phase a)).setWidth 8))
  | .step axis dir style count => needInit s (needAxis axis fun a =>
      .run [] (some { axis := a, dir := dir, style := style, left := count.toNat }) 0)

theorem exec_eq_command (i : Instr) (s : State) : exec i s = command (verdictOf i s) s := by cases i <;> rfl

theorem exec_of_idle {s : State} (h : s.position = .idle) (i : Instr) :
    exec i s = .next (carryOut (verdictOf i s) s) := by rw [exec_eq_command, command_of_idle h]

theorem exec_eq_next {i : Instr} {s t : State} (h : exec i s = .next t) :
    s.position = .idle ∧ t = carryOut (verdictOf i s) s := command_eq_next (exec_eq_command i s ▸ h)

/-! ### The verdicts -/

@[simp] theorem needLegal_true (v : Verdict) : needLegal true v = v := rfl

@[simp] theorem needLegal_false (v : Verdict) : needLegal false v = .raise .illegalCommand 0 := rfl

theorem needInit_of_initialized {s : State} (h : s.initialized = true) (v : Verdict) : needInit s v = v := by
  simp [needInit, h]

theorem needInit_of_not {s : State} (h : s.initialized = false) (v : Verdict) :
    needInit s v = .raise .notInitialized 0 := by simp [needInit, h]

theorem needAxis_of_some {axis : Byte} {a : Axis} (h : axisOf axis = some a) (k : Axis → Verdict) :
    needAxis axis k = k a := by simp [needAxis, h]

theorem needAxis_of_none {axis : Byte} (h : axisOf axis = none) (k : Axis → Verdict) :
    needAxis axis k = .raise .invalidAxis axis := by simp [needAxis, h]

theorem needPrescale_of_some {hz : Word16} {p : Byte} (h : prescaleOf hz = some p) (k : Byte → Verdict) :
    needPrescale hz k = k p := by simp [needPrescale, h]

theorem needPrescale_of_none {hz : Word16} (h : prescaleOf hz = none) (k : Byte → Verdict) :
    needPrescale hz k = .raise .invalidFrequency 0 := by simp [needPrescale, h]

/-- What a command runs, when its checks pass: its lines, STEP's iterations and the result byte. -/
inductive Runs (s : State) : Instr → List MicroOp → Option StepLoop → Byte → Prop where
  | init {hz : Word16} {p : Byte} (h : prescaleOf hz = some p) : Runs s (.init hz)
      (.setInitialized false :: initSeq s.params ++ freqSeq s.params hz p ++ [.setInitialized true]) none 0
  | setFreq {hz : Word16} {p : Byte} (hi : s.initialized = true) (h : prescaleOf hz = some p) :
      Runs s (.setFreq hz) (freqSeq s.params hz p) none 0
  | setChannel {ch : Byte} {on off : Word16} (hi : s.initialized = true) (hc : channelInRange ch = true)
      (hon : dutyInRange on = true) (hoff : dutyInRange off = true) :
      Runs s (.setChannel ch on off) (writeChannel (channelOfByte ch) on off) none 0
  | setAll {on off : Word16} (hi : s.initialized = true) (hon : dutyInRange on = true)
      (hoff : dutyInRange off = true) : Runs s (.setAll on off) (writeAll on off) none 0
  | setPin {pin val : Byte} (hi : s.initialized = true) (hp : pin.toNat ≤ 15) (hv : val.toNat ≤ 1) :
      Runs s (.setPin pin val) (writePin (channelOfByte pin) (val == 1)) none 0
  | getStepper {axis : Byte} {a : Axis} (hi : s.initialized = true) (ha : axisOf axis = some a) :
      Runs s (.getStepper axis) [] none 0
  | setSpeed {axis : Byte} {a : Axis} {rpm : Word16} (hi : s.initialized = true) (ha : axisOf axis = some a)
      (hr : rpm ≠ 0) : Runs s (.setSpeed axis rpm)
      (.setRpm a rpm :: writePin (s.params.pinMap a).pwma true ++ writePin (s.params.pinMap a).pwmb true) none 0
  | oneStep {axis : Byte} {a : Axis} {dir : Direction} {style : Style} (hi : s.initialized = true)
      (ha : axisOf axis = some a) : Runs s (.oneStep axis dir style) (oneStepOps a dir style s) none
      ((nextPhase dir style (s.phase a)).setWidth 8)
  | step {axis : Byte} {a : Axis} {dir : Direction} {style : Style} {count : BitVec 32} (hi : s.initialized = true)
      (ha : axisOf axis = some a) : Runs s (.step axis dir style count) []
      (some { axis := a, dir := dir, style := style, left := count.toNat }) 0

/-- A verdict is an error other than BusError, or what the command runs. -/
theorem verdictOf_cases (i : Instr) (s : State) :
    (∃ e info, verdictOf i s = .raise e info ∧ e ≠ .ok ∧ e ≠ .busError) ∨
    ∃ ops loop result, verdictOf i s = .run ops loop result ∧ Runs s i ops loop result := by
  cases i with
  | init hz =>
    cases h : prescaleOf hz with
    | none => exact .inl ⟨_, _, needPrescale_of_none h _, by decide, by decide⟩
    | some p => exact .inr ⟨_, _, _, needPrescale_of_some h _, .init h⟩
  | setFreq hz =>
    cases hi : s.initialized with
    | false => exact .inl ⟨_, _, needInit_of_not hi _, by decide, by decide⟩
    | true =>
      cases h : prescaleOf hz with
      | none => exact .inl ⟨_, _, (needInit_of_initialized hi _).trans (needPrescale_of_none h _), by decide, by decide⟩
      | some p => exact .inr ⟨_, _, _, (needInit_of_initialized hi _).trans (needPrescale_of_some h _), .setFreq hi h⟩
  | setChannel ch on off =>
    cases hl : channelInRange ch && dutyInRange on && dutyInRange off with
    | false => exact .inl ⟨.illegalCommand, 0, by rw [verdictOf, hl]; rfl, by decide, by decide⟩
    | true =>
      cases hi : s.initialized with
      | false =>
        exact .inl ⟨.notInitialized, 0, by rw [verdictOf, hl]; exact needInit_of_not hi _, by decide, by decide⟩
      | true =>
        have hl' := hl
        simp only [Bool.and_eq_true] at hl'
        exact .inr ⟨_, _, _, by rw [verdictOf, hl]; exact needInit_of_initialized hi _,
          .setChannel hi hl'.1.1 hl'.1.2 hl'.2⟩
  | setAll on off =>
    cases hl : dutyInRange on && dutyInRange off with
    | false => exact .inl ⟨.illegalCommand, 0, by rw [verdictOf, hl]; rfl, by decide, by decide⟩
    | true =>
      cases hi : s.initialized with
      | false =>
        exact .inl ⟨.notInitialized, 0, by rw [verdictOf, hl]; exact needInit_of_not hi _, by decide, by decide⟩
      | true =>
        have hl' := hl
        simp only [Bool.and_eq_true] at hl'
        exact .inr ⟨_, _, _, by rw [verdictOf, hl]; exact needInit_of_initialized hi _, .setAll hi hl'.1 hl'.2⟩
  | setPin pin val =>
    cases hi : s.initialized with
    | false => exact .inl ⟨_, _, needInit_of_not hi _, by decide, by decide⟩
    | true =>
      by_cases hp : 15 < pin.toNat
      · exact .inl ⟨_, _, (needInit_of_initialized hi _).trans (if_pos hp), by decide, by decide⟩
      · by_cases hv : 1 < val.toNat
        · exact .inl ⟨_, _, (needInit_of_initialized hi _).trans ((if_neg hp).trans (if_pos hv)), by decide, by decide⟩
        · exact .inr ⟨_, _, _, (needInit_of_initialized hi _).trans ((if_neg hp).trans (if_neg hv)),
            .setPin hi (by omega) (by omega)⟩
  | getStepper axis =>
    cases hi : s.initialized with
    | false => exact .inl ⟨_, _, needInit_of_not hi _, by decide, by decide⟩
    | true =>
      cases ha : axisOf axis with
      | none => exact .inl ⟨_, _, (needInit_of_initialized hi _).trans (needAxis_of_none ha _), by decide, by decide⟩
      | some a => exact .inr ⟨_, _, _, (needInit_of_initialized hi _).trans (needAxis_of_some ha _), .getStepper hi ha⟩
  | setSpeed axis rpm =>
    cases hi : s.initialized with
    | false => exact .inl ⟨_, _, needInit_of_not hi _, by decide, by decide⟩
    | true =>
      cases ha : axisOf axis with
      | none => exact .inl ⟨_, _, (needInit_of_initialized hi _).trans (needAxis_of_none ha _), by decide, by decide⟩
      | some a =>
        have hv := (needInit_of_initialized hi _).trans (needAxis_of_some ha fun a =>
          if rpm = 0 then .raise .invalidSpeed 0
          else .run (.setRpm a rpm :: writePin (s.params.pinMap a).pwma true ++
            writePin (s.params.pinMap a).pwmb true) none 0)
        by_cases hr : rpm = 0
        · exact .inl ⟨_, _, hv.trans (if_pos hr), by decide, by decide⟩
        · exact .inr ⟨_, _, _, hv.trans (if_neg hr), .setSpeed hi ha hr⟩
  | oneStep axis dir style =>
    cases hi : s.initialized with
    | false => exact .inl ⟨_, _, needInit_of_not hi _, by decide, by decide⟩
    | true =>
      cases ha : axisOf axis with
      | none => exact .inl ⟨_, _, (needInit_of_initialized hi _).trans (needAxis_of_none ha _), by decide, by decide⟩
      | some a => exact .inr ⟨_, _, _, (needInit_of_initialized hi _).trans (needAxis_of_some ha _), .oneStep hi ha⟩
  | step axis dir style count =>
    cases hi : s.initialized with
    | false => exact .inl ⟨_, _, needInit_of_not hi _, by decide, by decide⟩
    | true =>
      cases ha : axisOf axis with
      | none => exact .inl ⟨_, _, (needInit_of_initialized hi _).trans (needAxis_of_none ha _), by decide, by decide⟩
      | some a => exact .inr ⟨_, _, _, (needInit_of_initialized hi _).trans (needAxis_of_some ha _), .step hi ha⟩

/-- EVERYTHING A COMMAND CAN DO: it answers an error of its checks and nothing else, or it runs its lines to the end of
the command. -/
theorem exec_cases {i : Instr} {s t : State} (h : exec i s = .next t) :
    s.position = .idle ∧
    ((∃ e info, e ≠ .ok ∧ e ≠ .busError ∧ t = respond e info s) ∨
     ∃ ops loop result, Runs s i ops loop result ∧
       t = closeCommand result ((runOps ops s).andThen (runLoop loop))) := by
  obtain ⟨hp, rfl⟩ := exec_eq_next h
  refine ⟨hp, ?_⟩
  obtain ⟨e, info, hv, h1, h2⟩ | ⟨ops, loop, result, hv, hr⟩ := verdictOf_cases i s
  · exact .inl ⟨e, info, h1, h2, by rw [hv]; rfl⟩
  · exact .inr ⟨ops, loop, result, hr, by rw [hv, carryOut_run]⟩

/-! ### Traces -/

/-- The events a result has added to the trace: none failed if it is done; else one failed, the last, at the failing
offset (R66, R234). -/
def OpResult.Traced (s : State) : OpResult → Prop
  | .done t => ∃ es, t.trace = s.trace ++ es ∧ ∀ e ∈ es, e.isFailed = false
  | .failed t reg => ∃ es e, t.trace = s.trace ++ (es ++ [e]) ∧ (∀ e' ∈ es, e'.isFailed = false) ∧
      e.isFailed = true ∧ e.offset = reg

theorem perform_traced (op : MicroOp) (s : State) : (op.perform s).Traced s := by
  cases op with
  | write reg src =>
    cases h : s.busAnswer reg.offset with
    | fail => simp only [MicroOp.perform, busWrite, h, OpResult.Traced]; exact ⟨[], _, rfl, by simp, rfl, rfl⟩
    | ok b => simp only [MicroOp.perform, busWrite, h, OpResult.Traced]; exact ⟨[_], rfl, by simp [Event.isFailed]⟩
  | readMode1 =>
    cases h : s.busAnswer DevReg.mode1.offset with
    | fail => simp only [MicroOp.perform, busReadMode1, h, OpResult.Traced]; exact ⟨[], _, rfl, by simp, rfl, rfl⟩
    | ok b => simp only [MicroOp.perform, busReadMode1, h, OpResult.Traced]; exact ⟨[_], rfl, by simp [Event.isFailed]⟩
  | wait ms => exact ⟨[.wait ms], rfl, by simp [Event.isFailed]⟩
  | setInitialized v => exact ⟨[], by simp, by simp⟩
  | setFreq hz p => exact ⟨[], by simp, by simp⟩
  | setRpm a v => exact ⟨[], by simp, by simp⟩
  | setPhase a v => exact ⟨[], by simp, by simp⟩

theorem andThen_traced {s : State} {r : OpResult} {f : State → OpResult} (hr : r.Traced s)
    (hf : ∀ t, r = .done t → (f t).Traced t) : (r.andThen f).Traced s := by
  cases r with
  | failed t reg => exact hr
  | done t =>
    obtain ⟨es, h1, h2⟩ := hr
    have h3 := hf t rfl
    rw [andThen_done]
    cases hft : f t with
    | done u =>
      rw [hft] at h3
      obtain ⟨es', h4, h5⟩ := h3
      exact ⟨es ++ es', by simp [h1, h4], fun e he => (List.mem_append.mp he).elim (h2 e) (h5 e)⟩
    | failed u reg =>
      rw [hft] at h3
      obtain ⟨es', e, h4, h5, h6, h7⟩ := h3
      exact ⟨es ++ es', e, by simp [h1, h4], fun e he => (List.mem_append.mp he).elim (h2 e) (h5 e), h6, h7⟩

theorem runOps_traced (ops : List MicroOp) (s : State) : (runOps ops s).Traced s := by
  induction ops generalizing s with
  | nil => exact ⟨[], by simp, by simp⟩
  | cons op ops ih => exact andThen_traced (perform_traced op s) fun t _ => ih t

theorem repeatSteps_traced (a : Axis) (dir : Direction) (style : Style) (n : Nat) (s : State) :
    (repeatSteps a dir style n s).Traced s := by
  induction n generalizing s with
  | zero => exact ⟨[], by simp, by simp⟩
  | succ n ih => exact andThen_traced (runOps_traced _ s) fun t _ => ih t

theorem runLoop_traced (loop : Option StepLoop) (s : State) : (runLoop loop s).Traced s := by
  cases loop with
  | none => exact ⟨[], by simp, by simp⟩
  | some l => exact repeatSteps_traced l.axis l.dir l.style l.left s

theorem run_traced (ops : List MicroOp) (loop : Option StepLoop) (s : State) :
    ((runOps ops s).andThen (runLoop loop)).Traced s :=
  andThen_traced (runOps_traced ops s) fun t _ => runLoop_traced loop t

/-- A relation that every line a command can run meets, and that composes, relates the command's start to its end. -/
theorem run_induct {R : State → State → Prop} (hrefl : ∀ s, R s s) (htrans : ∀ {s t u}, R s t → R t u → R s u)
    (ops : List MicroOp) (loop : Option StepLoop) (hop : ∀ op ∈ ops, ∀ s, R s (op.perform s).state)
    (hloop : ∀ l, loop = some l → ∀ s, R s (oneStepBody l.axis l.dir l.style s).state) (s : State) :
    R s ((runOps ops s).andThen (runLoop loop)).state := by
  have h := runOps_induct hrefl htrans ops hop s
  cases hr : runOps ops s with
  | failed t reg => rw [hr] at h; exact h
  | done t =>
    rw [hr] at h
    rw [andThen_done]
    cases loop with
    | none => exact h
    | some l => exact htrans h (repeatSteps_induct hrefl htrans _ _ _ (hloop l rfl) l.left t)

end Sys2Proof.Machine
end

