-- ==== Sys2Proof/Laws/Frame.lean ====
section
/-! SUPPORT. What each line changes, which lines a command can run, and from the two: a relation that every line of a
command meets relates the state before the command to the one after. The frames follow from this. -/

namespace Sys2Proof.Machine

/-! ### Response words -/

@[simp] theorem statusField_append (a b : Byte) : statusField (a ++ b) = a := BitVec.extractLsb'_append_eq_left

@[simp] theorem resultField_append (a b : Byte) : resultField (a ++ b) = b := BitVec.extractLsb'_append_eq_right

@[simp] theorem statusField_responseWord (st : Status) (b : Byte) : statusField (responseWord st b) = st.code :=
  statusField_append _ _

@[simp] theorem resultField_responseWord (st : Status) (b : Byte) : resultField (responseWord st b) = b :=
  resultField_append _ _

/-! ### One line -/

/-- A bus write succeeds or fails, as the oracle says. -/
theorem perform_write_cases (reg : DevReg) (src : ByteSource) (s : State) :
    (s.bus.succeeds = true ∧
      (MicroOp.write reg src).perform s = .done (s.wrote [(reg.offset, src.eval s.held)])) ∨
    (s.bus.succeeds = false ∧
      (MicroOp.write reg src).perform s =
        .failed (s.record (.failedWrite reg.offset (src.eval s.held))) reg.offset) := by
  cases h : s.bus.succeeds with
  | true => exact .inl ⟨rfl, busWrite_of_succeeds reg _ h⟩
  | false => exact .inr ⟨rfl, busWrite_of_fails reg _ h⟩

/-- A bus read succeeds with some byte or fails, as the oracle says. -/
theorem perform_readMode1_cases (s : State) :
    (s.bus.succeeds = true ∧
      ∃ b, MicroOp.readMode1.perform s = .done { s.record (.read 0x00 b) with held := b }) ∨
    (s.bus.succeeds = false ∧ MicroOp.readMode1.perform s = .failed (s.record (.failedRead 0x00)) 0x00) := by
  cases h : s.bus.succeeds with
  | true => exact .inl ⟨rfl, busReadMode1_of_succeeds h⟩
  | false => exact .inr ⟨rfl, busReadMode1_of_fails h⟩

theorem perform_phase {op : MicroOp} {a : Axis} (h : ∀ v, op ≠ .setPhase a v) (s : State) :
    (op.perform s).state.phase a = s.phase a := by
  cases op with
  | write r src => obtain ⟨-, h⟩ | ⟨-, h⟩ := perform_write_cases r src s <;> rw [h] <;> cases a <;> rfl
  | readMode1 => obtain ⟨-, b, h⟩ | ⟨-, h⟩ := perform_readMode1_cases s <;> rw [h] <;> cases a <;> rfl
  | setPhase b v => exact setPhase_phase_other (a := b) (b := a) s (fun e => h v (e ▸ rfl)) v
  | setRpm b v => cases a <;> cases b <;> rfl
  | wait ms => cases a <;> rfl
  | setInitialized v => cases a <;> rfl
  | setFreq hz p => cases a <;> rfl

theorem perform_rpm {op : MicroOp} {a : Axis} (h : ∀ v, op ≠ .setRpm a v) (s : State) :
    (op.perform s).state.rpm a = s.rpm a := by
  cases op with
  | write r src => obtain ⟨-, h⟩ | ⟨-, h⟩ := perform_write_cases r src s <;> rw [h] <;> cases a <;> rfl
  | readMode1 => obtain ⟨-, b, h⟩ | ⟨-, h⟩ := perform_readMode1_cases s <;> rw [h] <;> cases a <;> rfl
  | setRpm b v => exact setRpm_rpm_other (a := b) (b := a) s (fun e => h v (e ▸ rfl)) v
  | setPhase b v => cases a <;> cases b <;> rfl
  | wait ms => cases a <;> rfl
  | setInitialized v => cases a <;> rfl
  | setFreq hz p => cases a <;> rfl

theorem perform_initialized {op : MicroOp} (h : ∀ v, op ≠ .setInitialized v) (s : State) :
    (op.perform s).state.initialized = s.initialized := by
  cases op with
  | write r src => obtain ⟨-, h⟩ | ⟨-, h⟩ := perform_write_cases r src s <;> rw [h] <;> rfl
  | readMode1 => obtain ⟨-, b, h⟩ | ⟨-, h⟩ := perform_readMode1_cases s <;> rw [h] <;> rfl
  | setInitialized v => exact absurd rfl (h v)
  | setPhase b v => cases b <;> rfl
  | setRpm b v => cases b <;> rfl
  | wait ms => rfl
  | setFreq hz p => rfl

theorem perform_frequency {op : MicroOp} (h : ∀ hz p, op ≠ .setFreq hz p) (s : State) :
    (op.perform s).state.freqHz = s.freqHz ∧ (op.perform s).state.prescale = s.prescale := by
  cases op with
  | write r src => obtain ⟨-, h⟩ | ⟨-, h⟩ := perform_write_cases r src s <;> rw [h] <;> exact ⟨rfl, rfl⟩
  | readMode1 => obtain ⟨-, b, h⟩ | ⟨-, h⟩ := perform_readMode1_cases s <;> rw [h] <;> exact ⟨rfl, rfl⟩
  | setFreq hz p => exact absurd rfl (h hz p)
  | setPhase b v => cases b <;> exact ⟨rfl, rfl⟩
  | setRpm b v => cases b <;> exact ⟨rfl, rfl⟩
  | wait ms => exact ⟨rfl, rfl⟩
  | setInitialized v => exact ⟨rfl, rfl⟩

theorem perform_held {op : MicroOp} (h : op ≠ .readMode1) (s : State) : (op.perform s).state.held = s.held := by
  cases op with
  | write r src => obtain ⟨-, h⟩ | ⟨-, h⟩ := perform_write_cases r src s <;> rw [h] <;> rfl
  | readMode1 => exact absurd rfl h
  | setPhase b v => cases b <;> rfl
  | setRpm b v => cases b <;> rfl
  | wait ms => rfl
  | setInitialized v => rfl
  | setFreq hz p => rfl

theorem perform_img {op : MicroOp} (h : ∀ reg src, op ≠ .write reg src) (s : State) :
    (op.perform s).state.img = s.img := by
  cases op with
  | write r src => exact absurd rfl (h r src)
  | readMode1 => obtain ⟨-, b, h⟩ | ⟨-, h⟩ := perform_readMode1_cases s <;> rw [h] <;> rfl
  | setPhase b v => cases b <;> rfl
  | setRpm b v => cases b <;> rfl
  | wait ms => rfl
  | setInitialized v => rfl
  | setFreq hz p => rfl

/-- A write leaves the device image alone or puts its byte at its offset. -/
theorem perform_write_img (reg : DevReg) (src : ByteSource) (s : State) :
    ((MicroOp.write reg src).perform s).state.img = s.img ∨
    ((MicroOp.write reg src).perform s).state.img = s.img.write reg.offset.toNat (src.eval s.held) := by
  obtain ⟨-, h⟩ | ⟨-, h⟩ := perform_write_cases reg src s <;> rw [h]
  · exact .inr rfl
  · exact .inl rfl

/-! ### Which lines a command can run -/

/-- The line is one that command `i`, taken in state `s`, may run. -/
def Allowed (s : State) (i : Instr) : MicroOp → Prop
  | .write reg src => reg.offset ∈ writableOffsets s i ∧ ∀ b, (Event.write reg.offset (src.eval b)).legal = true
  | .readMode1 => ∃ hz, i = .init hz ∨ i = .setFreq hz
  | .wait ms => ms = 5 ∧ ∃ hz, i = .init hz ∨ i = .setFreq hz
  | .setInitialized _ => ∃ hz, i = .init hz
  | .setFreq hz p => (i = .init hz ∨ i = .setFreq hz) ∧ prescaleOf hz = some p
  | .setRpm a v => v ≠ 0 ∧ ∃ axis, i = .setSpeed axis v ∧ axisOf axis = some a
  | .setPhase a _ =>
    (∃ axis dir style, i = .oneStep axis dir style ∧ axisOf axis = some a) ∨
    (∃ axis dir style count, i = .step axis dir style count ∧ axisOf axis = some a)

theorem dutyHigh_le {v : Word16} (h : dutyInRange v = true) : (dutyHigh v).toNat ≤ 0x10 := by
  have : v.toNat ≤ 4096 := by simpa [dutyInRange] using h
  simp only [dutyHigh, BitVec.toNat_setWidth, BitVec.extractLsb'_toNat, Nat.shiftRight_eq_div_pow]
  omega

theorem led_legal (ch : Channel) (part : Part) {b : Byte}
    (h : part = .onH ∨ part = .offH → b.toNat ≤ 0x10) : (Event.write (DevReg.led ch part).offset b).legal = true := by
  have hu : usedOffset (DevReg.led ch part).offset = true := by cases part <;> revert ch <;> decide
  have hl : ¬ (part = .onH ∨ part = .offH) → highRegister (DevReg.led ch part).offset = false := by
    cases part <;> revert ch <;> decide
  by_cases hp : part = .onH ∨ part = .offH
  · simp [Event.legal, hu, h hp]
  · simp [Event.legal, hu, hl hp]

theorem writeChannel_lines {ch : Channel} {on off : Word16} (hon : dutyInRange on = true)
    (hoff : dutyInRange off = true) {op : MicroOp} (h : op ∈ writeChannel ch on off) :
    ∃ reg b, op = writeByte reg b ∧ reg.offset ∈ channelOffsets ch ∧ (Event.write reg.offset b).legal = true := by
  simp only [writeChannel, List.mem_cons, List.not_mem_nil, or_false] at h
  rcases h with rfl | rfl | rfl | rfl
  · exact ⟨_, _, rfl, by simp [led_offset, channelOffsets, Part.index], led_legal ch _ (by simp)⟩
  · exact ⟨_, _, rfl, by simp [led_offset, channelOffsets, Part.index], led_legal ch _ fun _ => dutyHigh_le hon⟩
  · exact ⟨_, _, rfl, by simp [led_offset, channelOffsets, Part.index], led_legal ch _ (by simp)⟩
  · exact ⟨_, _, rfl, by simp [led_offset, channelOffsets, Part.index], led_legal ch _ fun _ => dutyHigh_le hoff⟩

theorem writePin_lines {pin : Channel} {v : Bool} {op : MicroOp} (h : op ∈ writePin pin v) :
    ∃ reg b, op = writeByte reg b ∧ reg.offset ∈ channelOffsets pin ∧ (Event.write reg.offset b).legal = true := by
  unfold writePin at h
  split at h
  · exact writeChannel_lines (by decide) (by decide) h
  · exact writeChannel_lines (by decide) (by decide) h

theorem coilWrite_lines {pins : PinMap} {n : Phase} {op : MicroOp} (h : op ∈ coilWrite pins n) :
    ∃ reg b, op = writeByte reg b ∧ reg.offset ∈ coilOffsets pins ∧ (Event.write reg.offset b).legal = true := by
  simp only [coilWrite, List.mem_append] at h
  rcases h with ((h | h) | h) | h <;> obtain ⟨reg, b, h1, h2, h3⟩ := writePin_lines h <;>
    exact ⟨reg, b, h1, by simp [coilOffsets, h2], h3⟩

theorem writeAll_lines {on off : Word16} (hon : dutyInRange on = true) (hoff : dutyInRange off = true) {op : MicroOp}
    (h : op ∈ writeAll on off) :
    ∃ reg b, op = writeByte reg b ∧ reg.offset ∈ [0xFA#8, 0xFB#8, 0xFC#8, 0xFD#8] ∧
      (Event.write reg.offset b).legal = true := by
  have h1 := dutyHigh_le hon
  have h2 := dutyHigh_le hoff
  simp only [writeAll, List.mem_cons, List.not_mem_nil, or_false] at h
  rcases h with rfl | rfl | rfl | rfl
  · exact ⟨_, _, rfl, by decide, rfl⟩
  · exact ⟨_, _, rfl, by decide, decide_eq_true h1⟩
  · exact ⟨_, _, rfl, by decide, rfl⟩
  · exact ⟨_, _, rfl, by decide, decide_eq_true h2⟩

theorem freqSeq_lines {s : State} {i : Instr} {hz : Word16} {p : Byte} (h : prescaleOf hz = some p)
    (hi : i = .init hz ∨ i = .setFreq hz) {op : MicroOp} (hop : op ∈ freqSeq s.params hz p) : Allowed s i op := by
  have hw : (0x00#8 ∈ writableOffsets s i) ∧ (0xFE#8 ∈ writableOffsets s i) := by
    rcases hi with rfl | rfl <;> exact ⟨by simp [writableOffsets], by simp [writableOffsets]⟩
  simp only [freqSeq, List.mem_cons, List.not_mem_nil, or_false] at hop
  rcases hop with rfl | rfl | rfl | rfl | rfl | rfl | rfl
  · exact ⟨hz, hi⟩
  · exact ⟨hw.1, fun _ => rfl⟩
  · exact ⟨hw.2, fun _ => rfl⟩
  · exact ⟨hi, h⟩
  · exact ⟨hw.1, fun _ => rfl⟩
  · exact ⟨rfl, hz, hi⟩
  · exact ⟨hw.1, fun _ => rfl⟩

theorem initSeq_lines {s : State} {hz : Word16} {op : MicroOp} (hop : op ∈ initSeq s.params) :
    Allowed s (.init hz) op := by
  simp only [initSeq, List.mem_append, List.mem_cons, List.not_mem_nil, or_false] at hop
  rcases hop with h | rfl | rfl | rfl | rfl | rfl | rfl
  · obtain ⟨reg, b, rfl, h1, h2⟩ := writeAll_lines (by decide) (by decide) h
    exact ⟨by simp only [writableOffsets, List.mem_cons] at h1 ⊢; tauto, fun _ => h2⟩
  · exact ⟨by simp [writableOffsets, DevReg.offset], fun _ => rfl⟩
  · exact ⟨by simp [writableOffsets, DevReg.offset], fun _ => rfl⟩
  · exact ⟨rfl, hz, .inl rfl⟩
  · exact ⟨hz, .inl rfl⟩
  · exact ⟨by simp [writableOffsets, DevReg.offset], fun _ => rfl⟩
  · exact ⟨rfl, hz, .inl rfl⟩

/-- The lines a command runs before STEP's iterations, and those of each iteration. -/
theorem runs_lines {s : State} {i : Instr} {ops : List MicroOp} {loop : Option StepLoop} {result : Byte}
    (h : Runs s i ops loop result) :
    (∀ op ∈ ops, Allowed s i op) ∧
    ∀ l, loop = some l → ∀ s', s'.params = s.params → ∀ op ∈ oneStepOps l.axis l.dir l.style s', Allowed s i op := by
  cases h with
  | init h =>
    refine ⟨fun op hop => ?_, by simp⟩
    simp only [List.cons_append, List.mem_cons, List.mem_append, List.not_mem_nil, or_false] at hop
    rcases hop with rfl | (hop | hop) | rfl
    · exact ⟨_, rfl⟩
    · exact initSeq_lines hop
    · exact freqSeq_lines h (.inl rfl) hop
    · exact ⟨_, rfl⟩
  | setFreq hi h => exact ⟨fun op hop => freqSeq_lines h (.inr rfl) hop, by simp⟩
  | setChannel hi hc hon hoff =>
    refine ⟨fun op hop => ?_, by simp⟩
    obtain ⟨reg, b, rfl, h1, h2⟩ := writeChannel_lines hon hoff hop
    exact ⟨h1, fun _ => h2⟩
  | setAll hi hon hoff =>
    refine ⟨fun op hop => ?_, by simp⟩
    obtain ⟨reg, b, rfl, h1, h2⟩ := writeAll_lines hon hoff hop
    exact ⟨h1, fun _ => h2⟩
  | setPin hi hp hv =>
    refine ⟨fun op hop => ?_, by simp⟩
    obtain ⟨reg, b, rfl, h1, h2⟩ := writePin_lines hop
    exact ⟨h1, fun _ => h2⟩
  | getStepper hi ha => simp
  | setSpeed hi ha hr =>
    refine ⟨fun op hop => ?_, by simp⟩
    simp only [List.cons_append, List.mem_cons, List.mem_append] at hop
    rcases hop with rfl | hop | hop
    · exact ⟨hr, _, rfl, ha⟩
    · obtain ⟨reg, b, rfl, h1, h2⟩ := writePin_lines hop
      exact ⟨by simp [writableOffsets, ha, h1], fun _ => h2⟩
    · obtain ⟨reg, b, rfl, h1, h2⟩ := writePin_lines hop
      exact ⟨by simp [writableOffsets, ha, h1], fun _ => h2⟩
  | oneStep hi ha =>
    refine ⟨fun op hop => ?_, by simp⟩
    simp only [oneStepOps, stepTo, List.mem_cons] at hop
    rcases hop with rfl | hop
    · exact .inl ⟨_, _, _, rfl, ha⟩
    · obtain ⟨reg, b, rfl, h1, h2⟩ := coilWrite_lines hop
      exact ⟨by simp [writableOffsets, ha, h1], fun _ => h2⟩
  | step hi ha =>
    refine ⟨by simp, fun l hl s' hp op hop => ?_⟩
    injection hl with hl
    subst hl
    simp only [oneStepOps, stepTo, List.mem_cons] at hop
    rcases hop with rfl | hop
    · exact .inr ⟨_, _, _, _, rfl, ha⟩
    · obtain ⟨reg, b, rfl, h1, h2⟩ := coilWrite_lines hop
      exact ⟨by rw [hp] at h1; simp [writableOffsets, ha, h1], fun _ => h2⟩

/-- An allowed line adds at most one event to the trace, a legal one (R62, R67, R73, R91). -/
theorem perform_trace {s : State} {i : Instr} {op : MicroOp} (h : Allowed s i op) (s' : State) :
    ∃ es, (op.perform s').state.trace = s'.trace ++ es ∧ ∀ e ∈ es, e.legal = true ∧
      (∀ reg b, e = .write reg b ∨ e = .failedWrite reg b → reg ∈ writableOffsets s i) ∧
      (∀ reg b, e = .read reg b ∨ e = .failedRead reg → ∃ hz, i = .init hz ∨ i = .setFreq hz) := by
  cases op with
  | write r src =>
    have hl := h.2 s'.held
    obtain ⟨-, hp⟩ | ⟨-, hp⟩ := perform_write_cases r src s' <;> rw [hp]
    · exact ⟨[_], rfl, by simpa using ⟨hl, h.1⟩⟩
    · refine ⟨[_], rfl, ?_⟩
      simp only [Event.legal] at hl
      simpa [Event.legal] using ⟨by simpa using hl, h.1⟩
  | readMode1 =>
    obtain ⟨-, b, hp⟩ | ⟨-, hp⟩ := perform_readMode1_cases s' <;> rw [hp]
    · exact ⟨[_], rfl, by simp [Event.legal]; exact h⟩
    · exact ⟨[_], rfl, by simp [Event.legal]; exact h⟩
  | wait ms => exact ⟨[_], rfl, by simp [Event.legal]; exact h.1⟩
  | setPhase b v => exact ⟨[], by simp [MicroOp.perform, OpResult.state], by simp⟩
  | setRpm b v => exact ⟨[], by simp [MicroOp.perform, OpResult.state], by simp⟩
  | setInitialized v => exact ⟨[], by simp [MicroOp.perform, OpResult.state], by simp⟩
  | setFreq hz p => exact ⟨[], by simp [MicroOp.perform, OpResult.state], by simp⟩

/-! ### From lines to commands -/

/-- EVERYTHING A COMMAND CAN CHANGE, but for its response: a relation that is reflexive, composes and holds over every
line the command may run holds between the state before the command and some state `u` that differs from the one after
only by the response. -/
theorem exec_induct {R : State → State → Prop} (hrefl : ∀ s, R s s) (htrans : ∀ {s t u}, R s t → R t u → R s u)
    {i : Instr} {s t : State} (h : exec i s = .next t)
    (hline : ∀ op, Allowed s i op → ∀ s', s'.params = s.params → R s' (op.perform s').state) :
    ∃ u st info, t = respond st info u ∧ R s u ∧
      u.position = s.position ∧ u.params = s.params ∧ u.commands = s.commands ∧ u.responses = s.responses := by
  obtain ⟨-, ⟨e, info, -, -, rfl⟩ | ⟨ops, loop, result, hr, rfl⟩⟩ := exec_cases h
  · exact ⟨s, e, info, rfl, hrefl s, rfl, rfl, rfl, rfl⟩
  obtain ⟨st, info, he, -⟩ := closeCommand_eq result ((runOps ops s).andThen (runLoop loop))
  obtain ⟨h1, h2⟩ := runs_lines hr
  let K : State → State → Prop := fun a b =>
    b.position = a.position ∧ b.params = a.params ∧ b.commands = a.commands ∧ b.responses = a.responses ∧
      (a.params = s.params → R a b)
  have krefl : ∀ a, K a a := fun a => ⟨rfl, rfl, rfl, rfl, fun _ => hrefl a⟩
  have ktrans : ∀ {a b c}, K a b → K b c → K a c := fun {a b c} hab hbc =>
    ⟨hbc.1.trans hab.1, hbc.2.1.trans hab.2.1, hbc.2.2.1.trans hab.2.2.1, hbc.2.2.2.1.trans hab.2.2.2.1,
      fun hp => htrans (hab.2.2.2.2 hp) (hbc.2.2.2.2 (hab.2.1.trans hp))⟩
  have kline : ∀ op, Allowed s i op → ∀ a, K a (op.perform a).state := fun op hop a =>
    have hk := perform_keeps op a
    ⟨hk.1, hk.2.1, hk.2.2.1, hk.2.2.2.1, hline op hop a⟩
  have kbody : ∀ l, loop = some l → ∀ a, K a (oneStepBody l.axis l.dir l.style a).state := by
    intro l hl a
    by_cases hp : a.params = s.params
    · exact runOps_induct krefl ktrans _ (fun op hop => kline op (h2 l hl a hp op hop)) a
    · refine ⟨?_, ?_, ?_, ?_, fun h => absurd h hp⟩
      · exact runOps_induct (R := fun a b => b.position = a.position) (fun _ => rfl) (fun h1 h2 => h2.trans h1) _
          (fun op _ a => (perform_keeps op a).1) a
      · exact runOps_induct (R := fun a b => b.params = a.params) (fun _ => rfl) (fun h1 h2 => h2.trans h1) _
          (fun op _ a => (perform_keeps op a).2.1) a
      · exact runOps_induct (R := fun a b => b.commands = a.commands) (fun _ => rfl) (fun h1 h2 => h2.trans h1) _
          (fun op _ a => (perform_keeps op a).2.2.1) a
      · exact runOps_induct (R := fun a b => b.responses = a.responses) (fun _ => rfl) (fun h1 h2 => h2.trans h1) _
          (fun op _ a => (perform_keeps op a).2.2.2.1) a
  have hk := run_induct krefl ktrans ops loop (fun op hop => kline op (h1 op hop)) kbody s
  exact ⟨_, st, info, he, hk.2.2.2.2 rfl, hk.1, hk.2.1, hk.2.2.1, hk.2.2.2.1⟩

end Sys2Proof.Machine
end

