-- ==== Sys2Proof/Laws/Packer.lean ====
section
/-! SUPPORT. The packer's shared sequences on whatever bus: lines one by one, then FreqSeq and InitSeq's MODE1 update
whole. -/

namespace Sys2Proof.Machine

theorem runOps_cons_done {op : MicroOp} {s u : State} (ops : List MicroOp) (h : op.perform s = .done u) :
    runOps (op :: ops) s = runOps ops u := by rw [runOps_cons, h]; rfl

theorem runOps_write_ok {s : State} (reg : DevReg) (src : ByteSource) (ops : List MicroOp)
    (h : s.bus.succeeds = true) :
    runOps (.write reg src :: ops) s = runOps ops (s.wrote [(reg.offset, src.eval s.held)]) :=
  runOps_cons_done ops (busWrite_of_succeeds reg _ h)

/-- The byte a read of the next transaction returns, whichever oracle answers it. -/
theorem gives_of_busAnswer {s : State} {reg b v : Byte} (h : s.busAnswer reg = .ok b) (hv : s.bus.gives v) : b = v := by
  unfold State.busAnswer at h
  obtain hv | ⟨hv, hf⟩ := hv <;> rw [hv] at h
  · injection h with h; exact h.symm
  · rw [show Config.busAnswer s.bus.count = .ok v from hf] at h; injection h with h; exact h.symm

/-- Some byte is the one the oracle would answer, if it names one. -/
theorem exists_given (bus : Bus) : ∃ b : Byte, ∀ v, bus.gives v → b = v := by
  by_cases h : ∃ v, bus.gives v
  · obtain ⟨b, hb⟩ := h
    refine ⟨b, fun v hv => ?_⟩
    obtain hb | ⟨hb, hb'⟩ := hb <;> obtain hv | ⟨hv, hv'⟩ := hv <;> simp_all
  · exact ⟨0, fun v hv => absurd ⟨v, hv⟩ h⟩

theorem runOps_readMode1_ok {s : State} (ops : List MicroOp) (h : s.bus.succeeds = true) :
    ∃ b, (∀ v, s.bus.gives v → b = v) ∧ runOps (.readMode1 :: ops) s =
      runOps ops { s with bus := s.bus.advance, held := b, trace := s.trace ++ [.read 0 b] } := by
  obtain ⟨b, hb⟩ := busAnswer_eq_ok DevReg.mode1.offset h
  exact ⟨b, fun v => gives_of_busAnswer hb,
    runOps_cons_done ops (by simp only [MicroOp.perform, busReadMode1, hb]; rfl)⟩

theorem runOps_write_fails {s : State} (reg : DevReg) (src : ByteSource) (ops : List MicroOp)
    (h : s.bus.succeeds = false) :
    runOps (.write reg src :: ops) s = .failed (s.record (.failedWrite reg.offset (src.eval s.held))) reg.offset := by
  rw [runOps_cons, MicroOp.perform, busWrite_of_fails reg _ h]; rfl

theorem runOps_readMode1_fails {s : State} (ops : List MicroOp) (h : s.bus.succeeds = false) :
    runOps (.readMode1 :: ops) s = .failed (s.record (.failedRead 0x00)) 0x00 := by
  rw [runOps_cons, MicroOp.perform, busReadMode1_of_fails h]; rfl

theorem and_allOnes_byte (b : Byte) : b &&& 255#8 = b := BitVec.and_allOnes

/-- The MODE1 update of InitSeq (R135), between its two settle delays: its events where the read returns `m`. -/
def wakeEvents (p : Params) (m : Byte) : List Event :=
  [.wait 5, .read 0x00 m, .write 0x00 (m &&& ~~~p.mode1Sleep), .wait 5]

/-- FreqSeq (R136), on whatever bus: done with its events, or ended at the transaction number `k` that fails. -/
theorem freqSeq_run (s : State) (p : Params) (hz : Word16) (pre : Byte) :
    ∃ old : Byte, (∀ v, s.bus.gives v → old = v) ∧
      (s.bus.okFor 5 = true → runOps (freqSeq p hz pre) s =
        .done { s.saw (freqEvents p pre old) with freqHz := hz, prescale := pre, held := old }) ∧
      (∀ k e, (transactions (freqEvents p pre old))[k]? = some e → s.bus.failsAfter k = true →
        runOps (freqSeq p hz pre) s = .failed { (s.saw (eventsBefore k (freqEvents p pre old))).record e.failed with
          freqHz := if 2 < k then hz else s.freqHz
          prescale := if 2 < k then pre else s.prescale
          held := if 0 < k then old else s.held } e.offset) := by
  cases h0 : s.bus.succeeds with
  | false =>
    obtain ⟨old, ho⟩ := exists_given s.bus
    refine ⟨old, ho, fun h => by simp [Bus.okFor, h0] at h, fun k e he hf => ?_⟩
    cases k with
    | succ k => simp [failsAfter_succ, h0] at hf
    | zero =>
      rw [freqSeq, runOps_readMode1_fails _ h0]
      simp [transactions, freqEvents, Event.isTransaction, List.filter_cons] at he
      subst he
      simp [State.saw, eventsBefore, freqEvents, transactions, writesOf, Memory.writes, advanceBy_zero,
        Event.failed, Event.offset, State.record]
  | true =>
    obtain ⟨old, ho, hr⟩ := runOps_readMode1_ok _ h0
    refine ⟨old, ho, fun h => ?_, fun k e he hf => ?_⟩
    · simp only [Bus.okFor, Bool.and_eq_true] at h
      obtain ⟨-, h1, h2, h3, h4, -⟩ := h
      rw [freqSeq, hr]
      simp only [writeByte]
      rw [runOps_write_ok, runOps_write_ok, runOps_cons_done _ rfl, runOps_write_ok, runOps_cons_done _ rfl,
        runOps_write_ok]
      · simp [State.saw, freqEvents, transactions, writesOf, Event.isTransaction, List.filter_cons, State.wrote,
        ByteSource.eval, waitMs, advanceBy_succ, advanceBy_zero, Memory.writes, DevReg.offset, settleMs,
          and_allOnes_byte]
      · simpa [State.wrote, advanceBy_one] using h4
      · simpa [State.wrote, advanceBy_one] using h3
      · simpa [State.wrote, advanceBy_one] using h2
      · simpa [State.wrote, advanceBy_one] using h1
    · have hk : k < 5 := by
        have := (List.getElem?_eq_some_iff.mp he).1
        simpa [transactions, freqEvents, Event.isTransaction, List.filter_cons] using this
      rw [freqSeq, hr]
      simp only [writeByte]
      interval_cases k <;> simp [transactions, freqEvents, Event.isTransaction,
        List.filter_cons] at he <;> subst he <;>
        simp only [failsAfter_succ, failsAfter_zero, h0, Bool.not_true, Bool.true_and, Bool.and_eq_true,
          Bool.not_eq_true', Bool.false_eq_true] at hf
      · rw [runOps_write_fails]
        · simp [State.saw, eventsBefore, freqEvents, transactions, writesOf, Event.isTransaction, List.filter_cons,
          State.record, Event.failed, Event.offset, ByteSource.eval, advanceBy_succ, advanceBy_zero, Memory.writes,
          DevReg.offset]
        · exact hf
      · rw [runOps_write_ok, runOps_write_fails]
        · simp [State.saw, eventsBefore, freqEvents, transactions, writesOf, Event.isTransaction, List.filter_cons,
          State.record, State.wrote, Event.failed, Event.offset, ByteSource.eval, advanceBy_succ, advanceBy_zero,
          Memory.writes, DevReg.offset]
        · simpa [State.wrote, advanceBy_one] using hf.2
        · exact hf.1
      · rw [runOps_write_ok, runOps_write_ok, runOps_cons_done _ rfl, runOps_write_fails]
        · simp [State.saw, eventsBefore, freqEvents, transactions, writesOf, Event.isTransaction, List.filter_cons,
          State.record, State.wrote, Event.failed, Event.offset, ByteSource.eval, advanceBy_succ, advanceBy_zero,
          Memory.writes, DevReg.offset, and_allOnes_byte]
        · simpa [State.wrote, advanceBy_one] using hf.2.2
        · simpa [State.wrote, advanceBy_one] using hf.2.1
        · exact hf.1
      · rw [runOps_write_ok, runOps_write_ok, runOps_cons_done _ rfl, runOps_write_ok, runOps_cons_done _ rfl,
        runOps_write_fails]
        · simp [State.saw, eventsBefore, freqEvents, transactions, writesOf, Event.isTransaction, List.filter_cons,
          State.record, State.wrote, Event.failed, Event.offset, ByteSource.eval, waitMs, settleMs, advanceBy_succ,
          advanceBy_zero, Memory.writes, DevReg.offset, and_allOnes_byte]
        · simpa [State.wrote, waitMs, advanceBy_one] using hf.2.2.2
        · simpa [State.wrote, advanceBy_one] using hf.2.2.1
        · simpa [State.wrote, advanceBy_one] using hf.2.1
        · exact hf.1

/-- The MODE1 update of InitSeq (R135), on whatever bus: done with its events,
  or ended at the transaction number `k` that
fails. -/
theorem wake_run (s : State) (p : Params) :
    ∃ m : Byte, (∀ v, s.bus.gives v → m = v) ∧
      (s.bus.okFor 2 = true →
        runOps [.wait settleMs, .readMode1, .write .mode1 (.held p.mode1Sleep 0), .wait settleMs] s =
          .done { s.saw (wakeEvents p m) with held := m }) ∧
      (∀ k e, (transactions (wakeEvents p m))[k]? = some e → s.bus.failsAfter k = true →
        runOps [.wait settleMs, .readMode1, .write .mode1 (.held p.mode1Sleep 0), .wait settleMs] s =
          .failed { (s.saw (eventsBefore k (wakeEvents p m))).record e.failed with
            held := if 0 < k then m else s.held } e.offset) := by
  cases h0 : s.bus.succeeds with
  | false =>
    obtain ⟨m, ho⟩ := exists_given s.bus
    refine ⟨m, ho, fun h => by simp [Bus.okFor, h0] at h, fun k e he hf => ?_⟩
    cases k with
    | succ k => simp [failsAfter_succ, h0] at hf
    | zero =>
      rw [runOps_cons_done _ rfl, runOps_readMode1_fails (s := waitMs settleMs s) _ h0]
      simp [transactions, wakeEvents, Event.isTransaction, List.filter_cons] at he
      subst he
      simp [State.saw, eventsBefore, wakeEvents, transactions, writesOf, Memory.writes, advanceBy_zero,
        Event.failed, Event.offset, State.record, Event.isTransaction, waitMs, settleMs]
  | true =>
    obtain ⟨m, ho, hr⟩ := runOps_readMode1_ok (s := waitMs settleMs s) [.write .mode1 (.held p.mode1Sleep 0),
      .wait settleMs] h0
    refine ⟨m, ho, fun h => ?_, fun k e he hf => ?_⟩
    · simp only [Bus.okFor, Bool.and_eq_true] at h
      rw [runOps_cons_done _ rfl, hr, runOps_write_ok, runOps_cons_done _ rfl]
      · simp [State.saw, wakeEvents, transactions, writesOf, Event.isTransaction, List.filter_cons, State.wrote,
        ByteSource.eval, waitMs, advanceBy_succ, advanceBy_zero, Memory.writes, DevReg.offset, settleMs]
      · exact h.2.1
    · have hk : k < 2 := by
        have := (List.getElem?_eq_some_iff.mp he).1
        simpa [transactions, wakeEvents, Event.isTransaction, List.filter_cons] using this
      rw [runOps_cons_done _ rfl, hr]
      interval_cases k <;> simp [transactions, wakeEvents, Event.isTransaction,
        List.filter_cons] at he <;> subst he <;>
        simp only [failsAfter_succ, failsAfter_zero, h0, Bool.not_true, Bool.true_and,
          Bool.not_eq_true', Bool.false_eq_true] at hf
      rw [runOps_write_fails]
      · simp [State.saw, eventsBefore, wakeEvents, transactions, writesOf, Event.isTransaction, List.filter_cons,
        State.record, Event.failed, Event.offset, ByteSource.eval, advanceBy_succ, advanceBy_zero, Memory.writes,
        DevReg.offset, waitMs, settleMs]
      · exact hf

end Sys2Proof.Machine
end

