-- ==== Sys2Proof/Laws/PerInstr.lean ====
section
/-! SUPPORT. Facts about every command as syntax, one lemma per constructor. -/

namespace Sys2Proof.Laws.OpcodeByte

/-- The encoding carries the command's opcode in its top byte (R100, R103). -/
def Statement (i : Instr) : Prop := opcodeOf (encode i) = i.opcode

theorem init (hz : Word16) : Statement (.init hz) := by
  simp (disch := decide) only [Statement, opcodeOf, encode, Instr.opcode, BitVec.extractLsb'_append_eq_of_le]
  decide

theorem setFreq (hz : Word16) : Statement (.setFreq hz) := by
  simp (disch := decide) only [Statement, opcodeOf, encode, Instr.opcode, BitVec.extractLsb'_append_eq_of_le]
  decide

theorem setChannel (ch : Byte) (on off : Word16) : Statement (.setChannel ch on off) := by
  simp (disch := decide) only [Statement, opcodeOf, encode, Instr.opcode, BitVec.extractLsb'_append_eq_of_le]
  decide

theorem setAll (on off : Word16) : Statement (.setAll on off) := by
  simp (disch := decide) only [Statement, opcodeOf, encode, Instr.opcode, BitVec.extractLsb'_append_eq_of_le]
  decide

theorem setPin (pin val : Byte) : Statement (.setPin pin val) := by
  simp (disch := decide) only [Statement, opcodeOf, encode, Instr.opcode, BitVec.extractLsb'_append_eq_of_le]
  decide

theorem getStepper (axis : Byte) : Statement (.getStepper axis) := by
  simp (disch := decide) only [Statement, opcodeOf, encode, Instr.opcode, BitVec.extractLsb'_append_eq_of_le]
  decide

theorem setSpeed (axis : Byte) (rpm : Word16) : Statement (.setSpeed axis rpm) := by
  simp (disch := decide) only [Statement, opcodeOf, encode, Instr.opcode, BitVec.extractLsb'_append_eq_of_le]
  decide

theorem oneStep (axis : Byte) (dir : Direction) (style : Style) : Statement (.oneStep axis dir style) := by
  simp (disch := decide) only [Statement, opcodeOf, encode, Instr.opcode, BitVec.extractLsb'_append_eq_of_le]
  decide

theorem step (axis : Byte) (dir : Direction) (style : Style) (count : BitVec 32) : Statement (.step axis dir style count) := by
  simp (disch := decide) only [Statement, opcodeOf, encode, Instr.opcode, BitVec.extractLsb'_append_eq_of_le]
  decide

end Sys2Proof.Laws.OpcodeByte
end

