-- ==== Sys2Proof/Tests/Slice0.lean ====
section
/-! SUPPORT. Tests on values the spec gives (spec/95_test_vectors.md, spec/30_encoding.md R115), and for each obligation
with hypotheses a witness that meets all of them. -/

namespace Sys2Proof.Tests

open Sys2Proof.Machine

/-! ### Helpers -/

/-- The state the vectors call "after INIT": {0, 0, 0, 0, 1, 1600, 3} on the reference device. -/
def afterInit : State :=
  { State.reset with
    initialized := true, freqHz := 1600, prescale := 3
    bus := { script := [], rest := .reference, count := 13 }
    img := [(0x00, 0x81), (0x01, 0x04), (0xFA, 0), (0xFB, 0), (0xFC, 0), (0xFD, 0), (0xFE, 0x03)] }

/-- The reset state on the reference device with one byte, `img[0x00] = 0x11` (V-P20). -/
def fresh : State :=
  { State.reset with bus := { script := [], rest := .reference, count := 0 }, img := [(0x00, 0x11)] }

/-- The same state with the `k`-th transaction from here failing. -/
def failing (k : Nat) (s : State) : State :=
  { s with bus := { s.bus with script := List.replicate (k - 1) .reference ++ [.answer .fail] } }

/-- One step on a command word. -/
def issue (w : Nat) (s : State) : Host.Outcome State Fault Refusal := step (s.withFetchWord 64 w)

/-- What a vector states: the response, the trace and the state after. -/
def seen : Host.Outcome State Fault Refusal → Option (List Word16 × List Event × Observation)
  | .next t => some (t.responses, t.trace, t.observe)
  | .fault _ => none
  | .refused _ => none

/-- The response and the trace. -/
def reply (o : Host.Outcome State Fault Refusal) : Option (List Word16 × List Event) :=
  (seen o).map fun r => (r.1, r.2.1)

/-- The response, with an empty trace. -/
def quiet (o : Host.Outcome State Fault Refusal) : Option Word16 :=
  match reply o with
  | some ([r], []) => some r
  | _ => none

/-- `ON(b)` of the vectors. -/
def on (b : Byte) : List Event := [.write b 0, .write (b + 1) 0x10, .write (b + 2) 0, .write (b + 3) 0]

/-- `OFF(b)` of the vectors. -/
def off (b : Byte) : List Event := [.write b 0, .write (b + 1) 0, .write (b + 2) 0, .write (b + 3) 0x10]

/-! ### WellFormed (R108, R109) -/

theorem test_wellFormed_accepts :
    ((Instr.setChannel 15 4096 4096).wellFormed && (Instr.setAll 4096 4096).wellFormed) = true := by decide

theorem test_wellFormed_refuses_channel : (Instr.setChannel 16 0 0).wellFormed = false := by decide

theorem test_wellFormed_refuses_channel_on : (Instr.setChannel 0 4097 0).wellFormed = false := by decide

theorem test_wellFormed_refuses_channel_off : (Instr.setChannel 0 0 4097).wellFormed = false := by decide

theorem test_wellFormed_refuses_all_on : (Instr.setAll 4097 0).wellFormed = false := by decide

theorem test_wellFormed_refuses_all_off : (Instr.setAll 0 4097).wellFormed = false := by decide

/-! ### Decoding, one word of each row (R101, R115) -/

theorem test_decode_init : decode 0x0100000000000640 = .instr (.init 1600) := by decide

theorem test_decode_setFreq : decode 0x020000000000003C = .instr (.setFreq 60) := by decide

theorem test_decode_setChannel : decode 0x0300000501230ABC = .instr (.setChannel 5 0x123 0xABC) := by decide

/-- V-S11. -/
theorem test_decode_setAll : decode 0x0400000008000400 = .instr (.setAll 2048 1024) := by decide

theorem test_decode_setPin : decode 0x0500000000001001 = .instr (.setPin 16 1) := by decide

theorem test_decode_getStepper : decode 0x0603000000000000 = .instr (.getStepper 3) := by decide

theorem test_decode_setSpeed : decode 0x070100000000001E = .instr (.setSpeed 1 30) := by decide

theorem test_decode_oneStep : decode 0x0801010200000000 = .instr (.oneStep 1 .forward .double) := by decide

theorem test_decode_step : decode 0x0902020400000003 = .instr (.step 2 .backward .microstep 3) := by decide

/-- The words of R115 are what the encoder gives. -/
theorem test_encode :
    encode (.setChannel 0 0 4096) = 0x0300000000001000 ∧ encode (.step 1 .forward .double 4) = 0x0901010200000004 := by
  decide

/-! ### Illegal words (V-E1 to V-E10, V-S6 to V-S8) -/

theorem test_illegal_opcode :
    decode 0x0000000000000000 = .illegal .undefinedOpcode ∧ decode 0xFF00000000000000 = .illegal .undefinedOpcode ∧
    decode 0x0A00000000000000 = .illegal .undefinedOpcode := by decide

theorem test_illegal_reserved :
    decode 0x0100000000010640 = .illegal .reservedBits ∧ decode 0x0601000000000001 = .illegal .reservedBits ∧
    decode 0x0801010200000001 = .illegal .reservedBits := by decide

theorem test_illegal_direction :
    decode 0x0901000200000001 = .illegal .badDirection ∧ decode 0x0901030200000001 = .illegal .badDirection := by decide

theorem test_illegal_style :
    decode 0x0901010000000001 = .illegal .badStyle ∧ decode 0x0801010500000000 = .illegal .badStyle := by decide

theorem test_illegal_channel : decode 0x0300001000000000 = .illegal .badChannel := by decide

theorem test_illegal_duty :
    decode 0x0300000010010000 = .illegal .badDuty ∧ decode 0x030000000000FFFF = .illegal .badDuty := by decide

/-! ### The host's entry points -/

theorem test_decodeTableWord :
    decodeTableWord 64 0x0802020300000000 = some (.oneStep 2 .backward .interleave) ∧
    decodeTableWord 64 0x0A00000000000000 = none := by decide

/-! ### Assembler (R114, R115) -/

theorem test_assemble_packer :
    assemble "init 1600" = some 0x0100000000000640 ∧ assemble "set_freq 60" = some 0x020000000000003C ∧
    assemble "set_channel 5, 0x123, 0xABC" = some 0x0300000501230ABC ∧
    assemble "set_all 0, 4096" = some 0x0400000000001000 ∧ assemble "set_pin 16, 1" = some 0x0500000000001001 ∧
    assemble "full_on 9" = some 0x0300000910000000 ∧ assemble "full_off 9" = some 0x0300000900001000 := by decide

theorem test_assemble_sequencer :
    assemble "get_stepper 3" = some 0x0603000000000000 ∧ assemble "set_speed 1, 30" = some 0x070100000000001E ∧
    assemble "one_step 1, forward, double" = some 0x0801010200000000 ∧
    assemble "step 2, 3, backward, microstep" = some 0x0902020400000003 ∧
    assemble "one_step 1, forward, 5" = some 0x0801010500000000 := by decide

/-! ### Prescale (V-P1 to V-P19) -/

theorem test_prescale_valid :
    [24, 25, 50, 60, 100, 200, 400, 500, 1000, 1526, 1527, 1600, 1743].map (fun hz => prescaleOf hz) =
    [253, 243, 121, 101, 60, 30, 14, 11, 5, 3, 3, 3, 3].map some := by decide

theorem test_prescale_invalid :
    [0, 1, 23, 1744, 2000, 65535].map (fun hz => prescaleOf hz) = List.replicate 6 none := by decide

/-! ### Reset -/

/-- R260, with the waiting machine of R261. -/
theorem test_reset :
    seen (step State.reset) = some ([], [], ⟨0, 0, 0, 0, false, 0, 0⟩) ∧ State.reset.commands = [] := by decide

/-! ### One command each -/

/-- V-P20, whole. -/
theorem test_init : seen (issue 0x0100000000000640 fresh) = some ([0x0000], [
    .write 0xFA 0, .write 0xFB 0, .write 0xFC 0, .write 0xFD 0, .write 0x01 0x04, .write 0x00 0x01, .wait 5,
    .read 0x00 0x01, .write 0x00 0x01, .wait 5, .read 0x00 0x01, .write 0x00 0x11, .write 0xFE 0x03,
    .write 0x00 0x01, .wait 5, .write 0x00 0x81], ⟨0, 0, 0, 0, true, 1600, 3⟩) := by decide

/-- V-B6: the fifth transaction fails, and the block is no longer initialized. -/
theorem test_init_busError : seen (issue 0x0100000000000640 (failing 5 afterInit)) = some ([0x0101], [
    .write 0xFA 0, .write 0xFB 0, .write 0xFC 0, .write 0xFD 0, .failedWrite 0x01 0x04],
    ⟨0, 0, 0, 0, false, 1600, 3⟩) := by decide

/-- V-P21. -/
theorem test_setFreq : seen (issue 0x020000000000003C afterInit) = some ([0x0000], [
    .read 0x00 0x81, .write 0x00 0x11, .write 0xFE 0x65, .write 0x00 0x81, .wait 5, .write 0x00 0x81],
    ⟨0, 0, 0, 0, true, 60, 101⟩) := by decide

/-- V-B5: the fourth transaction fails, after the PRESCALE write. -/
theorem test_setFreq_busError : seen (issue 0x020000000000003C (failing 4 afterInit)) = some ([0x0100], [
    .read 0x00 0x81, .write 0x00 0x11, .write 0xFE 0x65, .failedWrite 0x00 0x81],
    ⟨0, 0, 0, 0, true, 60, 101⟩) := by decide

/-- V-S2. -/
theorem test_setChannel : reply (issue 0x0300000501230ABC afterInit) =
    some ([0x0000], [.write 0x1A 0x23, .write 0x1B 0x01, .write 0x1C 0xBC, .write 0x1D 0x0A]) := by decide

/-- V-S3: the last channel and the largest tick. -/
theorem test_setChannel_last : reply (issue 0x0300000F0FFF0000 afterInit) =
    some ([0x0000], [.write 0x42 0xFF, .write 0x43 0x0F, .write 0x44 0, .write 0x45 0]) := by decide

/-- V-S10. -/
theorem test_setAll : reply (issue 0x0400000010000000 afterInit) =
    some ([0x0000], [.write 0xFA 0, .write 0xFB 0x10, .write 0xFC 0, .write 0xFD 0]) := by decide

/-- V-S12. -/
theorem test_setPin : reply (issue 0x0500000000000F00 afterInit) = some ([0x0000], off 0x42) := by decide

/-- V-S16: the pin is checked before the value. -/
theorem test_setPin_pinFirst : quiet (issue 0x0500000000001002 afterInit) = some 0x0410 := by decide

/-- V-Q28, V-W6. -/
theorem test_getStepper :
    quiet (issue 0x0601000000000000 afterInit) = some 0x0000 ∧
    quiet (issue 0x0603000000000000 afterInit) = some 0x0303 := by decide

/-- V-Q33. -/
theorem test_setSpeed : seen (issue 0x070200000000003C afterInit) =
    some ([0x0000], on 0x0E ++ on 0x22, ⟨0, 0, 0, 60, true, 1600, 3⟩) := by decide

/-- V-B7: the speed is stored before the pins are written. -/
theorem test_setSpeed_busError : seen (issue 0x070100000000001E (failing 5 afterInit)) =
    some ([0x013A], on 0x26 ++ [.failedWrite 0x3A 0], ⟨0, 0, 30, 0, true, 1600, 3⟩) := by decide

/-- V-Q23: backward over 0 from an even index. -/
theorem test_oneStep : seen (issue 0x0801020200000000 afterInit) =
    some ([0x001C], on 0x2A ++ off 0x32 ++ off 0x2E ++ on 0x36, ⟨28, 0, 0, 0, true, 1600, 3⟩) := by decide

/-- V-B1. -/
theorem test_oneStep_busError : seen (issue 0x0801010200000000 (failing 6 afterInit)) =
    some ([0x0133], on 0x2A ++ [.write 0x32 0, .failedWrite 0x33 0x10], ⟨4, 0, 0, 0, true, 1600, 3⟩) := by decide

/-- P3 line 3, on axis 2 across the wrap. -/
theorem test_step : seen (issue 0x0902020400000003 afterInit) =
    some ([0x0000], (List.replicate 3 (on 0x12 ++ off 0x1A ++ off 0x16 ++ on 0x1E)).flatten,
      ⟨0, 29, 0, 0, true, 1600, 3⟩) := by decide

/-- P4 line 4: the second of three iterations fails at its fourth write. -/
theorem test_step_busError : seen (issue 0x0901010200000003 (failing 20 { afterInit with phase1 := 12 })) =
    some ([0x012D], off 0x2A ++ off 0x32 ++ on 0x2E ++ on 0x36 ++
      [.write 0x2A 0, .write 0x2B 0x10, .write 0x2C 0, .failedWrite 0x2D 0], ⟨28, 0, 0, 0, true, 1600, 3⟩) := by decide

/-! ### Order of the checks (V-E11 to V-E15, V-Q31, V-P22) -/

theorem test_checks_beforeInit :
    quiet (issue 0x0603000000000000 fresh) = some 0x0700 ∧ quiet (issue 0x0300001000000000 fresh) = some 0x0600 ∧
    quiet (issue 0x0500000000000001 fresh) = some 0x0700 ∧ quiet (issue 0x0100000000000017 fresh) = some 0x0200 ∧
    quiet (issue 0x0901010200000004 fresh) = some 0x0700 := by decide

theorem test_checks_afterInit :
    quiet (issue 0x070300000000000A afterInit) = some 0x0303 ∧ quiet (issue 0x0702000000000000 afterInit) = some 0x0800 ∧
    quiet (issue 0x0100000000000000 afterInit) = some 0x0200 ∧ quiet (issue 0x050000000000FFFF afterInit) = some 0x04FF ∧
    quiet (issue 0x0500000000000002 afterInit) = some 0x0502 := by decide

/-! ### Phases (V-Q2 to V-Q21) -/

/-- The phases after the first steps. -/
def phases (dir : Direction) (style : Style) (p : Phase) (n : Nat) : List Nat :=
  (List.range n).map fun k => (phaseAfter dir style (k + 1) p).toNat

theorem test_phases_double :
    phases .forward .double 0 5 = [4, 12, 20, 28, 4] ∧ phases .forward .double 31 4 = [7, 15, 23, 31] ∧
    phases .backward .double 0 5 = [28, 20, 12, 4, 28] ∧ phases .backward .double 3 4 = [31, 23, 15, 7] := by decide

theorem test_phases_single :
    phases .forward .single 4 5 = [8, 16, 24, 0, 8] ∧ phases .backward .single 4 5 = [0, 24, 16, 8, 0] ∧
    phases .forward .single 5 4 = [9, 17, 25, 1] := by decide

theorem test_phases_small :
    phases .forward .interleave 31 4 = [3, 7, 11, 15] ∧ phases .backward .interleave 5 4 = [1, 29, 25, 21] ∧
    phases .forward .microstep 28 5 = [29, 30, 31, 0, 1] ∧ phases .backward .microstep 4 6 = [3, 2, 1, 0, 31, 30] := by
  decide

/-! ### Witnesses: for each obligation with hypotheses, a state and operands that meet them -/

/-- An initialized idle block on the reference device, with a next command. -/
def ready : State := { afterInit with commands := [0x0601000000000000] }

theorem witness_ready : ready.Ready := by decide

/-- A block inside a ONE_STEP, one write still to do. -/
def unfinished : State := { afterInit with position := .running [.write .mode2 (.lit 0)] none 4 }

theorem witness_DecodeOfEncodeIsTheCommand : (Instr.setChannel 15 4096 0).wellFormed = true := by decide

theorem witness_EncodeOfDecodeIsTheWord : decode 0x0300000F10000000 = .instr (.setChannel 15 4096 0) := by decide

theorem witness_EveryWordDecodesOnceOrIsIllegal_illegal :
    illegalByRule 0x0300000010010000 = true ∧ illegalByRule 0x0A00000000000000 = true := by decide

theorem witness_EveryWordDecodesOnceOrIsIllegal_legal :
    illegalByRule 0x0300000F10001000 = false ∧ illegalByRule 0x0900020400000000 = false := by decide

theorem witness_EveryWordDecodesOnceOrIsIllegal_row :
    ∃ r ∈ opcodeTable, r.covers 0x0601000000000000 = true := by decide

theorem witness_DecodedWordLiesInItsTableRow : decode 0x0601000000000000 = .instr (.getStepper 1) := by decide

theorem witness_StepRunsTheDecodedCommand :
    ready.position = .idle ∧ ready.commands = [0x0601000000000000] ∧
    decode 0x0601000000000000 = .instr (.getStepper 1) := by decide

theorem witness_IllegalWordIsAnsweredIllegalCommand :
    (State.reset.withFetchWord 64 0).position = .idle ∧ (State.reset.withFetchWord 64 0).commands = [0] ∧
    illegalByRule 0 = true := by decide

theorem witness_IdleBlockWaitsForACommand : State.reset.position = .idle ∧ State.reset.commands = [] := by decide

theorem witness_UnfinishedCommandIsFinishedFirst : unfinished.position ≠ .idle := by decide

theorem witness_OverlappingCommandIsRefused : unfinished.position ≠ .idle := by decide

theorem witness_FailedCheckHasNoSideEffect :
    ready.position = .idle ∧ firstError (.setPin 16 2) ready = some (.invalidPin, 16) ∧
    (ready.withFetchWord 64 0).commands = 0 :: ready.commands ∧ decode 0 = .illegal .undefinedOpcode := by decide

theorem witness_NotInitializedBeforeInit :
    (Instr.getStepper 3).wellFormed = true ∧ (∀ hz, Instr.getStepper 3 ≠ .init hz) ∧
    State.reset.position = .idle ∧ State.reset.initialized = false :=
  ⟨by decide, by simp, by decide, by decide⟩

theorem witness_OtherAxisIsInvalidAxis : ready.Ready ∧ (0 : Byte) ≠ 1 ∧ (0 : Byte) ≠ 2 ∧ (3 : Byte) ≠ 1 ∧ (3 : Byte) ≠ 2 := by
  decide

theorem witness_BadPinOrPinValue :
    ready.Ready ∧ 15 < (16 : Byte).toNat ∧ (15 : Byte).toNat ≤ 15 ∧ 1 < (2 : Byte).toNat := by decide

theorem witness_BadFrequencyOrSpeed :
    ready.Ready ∧ prescaleOf 23 = none ∧ prescaleOf 1744 = none ∧ State.reset.position = .idle ∧
    ((2 : Byte) = 1 ∨ (2 : Byte) = 2) := by decide

theorem witness_EveryCommandEndsWithOneResponse :
    ready.position = .idle ∧ (ready.withFetchWord 64 0).position = .idle ∧
    (ready.withFetchWord 64 0).commands = 0 :: ready.commands ∧ illegalByRule 0 = true := by decide

theorem witness_FailedEventEndsTheCommand : ∃ t, exec (.setPin 15 1) (failing 2 ready) = .next t ∧
    t.trace.getLast? = some (.failedWrite 0x43 0x10) := ⟨_, rfl, by decide⟩

theorem witness_InitRunsItsSequence :
    ready.position = .idle ∧ prescaleOf 1600 = some 3 ∧ ready.bus.okFor 13 = true := by decide

/-- The failing clause, at its first and its last transaction. -/
theorem witness_InitRunsItsSequence_failing :
    (transactions (initEvents ready.params 3 0x01 0x01))[0]? = some (.write 0xFA 0) ∧
    (failing 1 ready).bus.failsAfter 0 = true ∧
    (transactions (initEvents ready.params 3 0x01 0x01))[12]? = some (.write 0x00 0x81) ∧
    (failing 13 ready).bus.failsAfter 12 = true := by decide

/-- The oracle names the bytes of the two reads. -/
theorem witness_InitRunsItsSequence_reads :
    (Bus.advanceBy 6 { script := List.replicate 9 (.answer (.ok 0x33)), rest := .free, count := 0 }).gives 0x33 ∧
    (Bus.advanceBy 8 { script := List.replicate 9 (.answer (.ok 0x33)), rest := .free, count := 0 }).gives 0x33 :=
  ⟨.inl rfl, .inl rfl⟩

theorem witness_InitOnTheReferenceDevice :
    fresh.position = .idle ∧ prescaleOf 24 = some 253 ∧
    fresh.bus = { script := [], rest := .reference, count := 0 } ∧
    (0x01 : Byte) = fresh.params.mode1Allcall &&& ~~~fresh.params.mode1Sleep := by decide

theorem witness_SetFreqRunsItsSequence :
    ready.Ready ∧ prescaleOf 1743 = some 3 ∧ ready.bus.okFor 5 = true := by decide

/-- The failing clause, at its first and its last transaction. -/
theorem witness_SetFreqRunsItsSequence_failing :
    (transactions (freqEvents ready.params 3 0x81))[0]? = some (.read 0x00 0x81) ∧
    (failing 1 ready).bus.failsAfter 0 = true ∧
    (transactions (freqEvents ready.params 3 0x81))[4]? = some (.write 0x00 0x81) ∧
    (failing 5 ready).bus.failsAfter 4 = true := by decide

/-- The oracle names the byte of the read. -/
theorem witness_SetFreqRunsItsSequence_read :
    Bus.gives { script := [.answer (.ok 0x33)], rest := .free, count := 0 } 0x33 := .inl rfl

theorem witness_FrequencyFollowsThePrescaleWrite :
    prescaleOf 60 = some 101 ∧ ready.initialized = true ∧ (∃ t, exec (.init 60) (failing 13 ready) = .next t) ∧
    ∃ t, exec (.setFreq 60) (failing 3 ready) = .next t :=
  ⟨by decide, by decide, ⟨_, rfl⟩, ⟨_, rfl⟩⟩

theorem witness_SetChannelWritesTheWindow :
    ready.Ready ∧ (15 : Byte).toNat ≤ 15 ∧ (4096 : Word16).toNat ≤ 4096 ∧ ready.bus.okFor 4 = true ∧
    (failing 4 ready).bus.failsAfter 3 = true := by decide

theorem witness_SetAllWritesTheBroadcastWindow :
    ready.Ready ∧ (4096 : Word16).toNat ≤ 4096 ∧ ready.bus.okFor 4 = true ∧ (failing 1 ready).bus.failsAfter 0 = true := by decide

theorem witness_SetPinWritesASentinelWindow :
    ready.Ready ∧ (15 : Byte).toNat ≤ 15 ∧ (0x42 : Byte) = 0x06 + 4 * 15 ∧ ready.bus.okFor 4 = true ∧
    (failing 4 ready).bus.failsAfter 3 = true := by decide

theorem witness_AxisOperandNamesItsMotor : (0 : Byte) ≠ 1 ∧ (0 : Byte) ≠ 2 ∧ (3 : Byte) ≠ 1 ∧ (3 : Byte) ≠ 2 := by decide

theorem witness_GetStepperOnlyAnswers : ready.Ready ∧ ((1 : Byte) = 1 ∨ (1 : Byte) = 2) := by decide

theorem witness_SetSpeedStoresAndPowersTheBridges :
    ready.Ready ∧ axisOf 2 = some .two ∧ (65535 : Word16) ≠ 0 ∧ ready.bus.okFor 8 = true ∧
    (failing 8 ready).bus.failsAfter 7 = true := by decide

theorem witness_OneStepMovesAndWritesThePattern :
    ready.Ready ∧ axisOf 1 = some .one ∧ (28 : Phase) = nextPhase .backward .double (ready.phase .one) ∧
    ready.bus.okFor 16 = true ∧ (failing 16 ready).bus.failsAfter 15 = true := by decide

theorem witness_StepMakesCountSteps :
    ready.Ready ∧ axisOf 2 = some .two ∧ ready.bus.okFor (16 * (2 : BitVec 32).toNat) = true := by decide

theorem witness_StepEndsInTheIterationTheBusFails :
    ready.Ready ∧ axisOf 1 = some .one ∧ 1 < (2 : BitVec 32).toNat ∧
    (coilWrites (ready.params.pinMap .one) (phaseAfter .forward .double 2 (ready.phase .one)))[3]? =
      some (0x2D, 0x10) ∧
    (failing 20 ready).bus.failsAfter (16 * 1 + 3) = true := by decide

theorem witness_StepEqualsThatManyOneSteps :
    ready.Ready ∧ ((2 : Byte) = 1 ∨ (2 : Byte) = 2) ∧ ready.bus.okFor (16 * (1 : BitVec 32).toNat) = true := by decide

theorem witness_PhaseWrittenOnlyByItsOwnSteps : (∃ t, exec (.oneStep 2 .forward .double) ready = .next t) ∧
    axisOf 2 ≠ some .one := ⟨⟨_, rfl⟩, by decide⟩

theorem witness_OtherRegistersWrittenOnlyByTheirCommands : (∃ t, exec (.setSpeed 2 60) ready = .next t) ∧
    axisOf 2 ≠ some .one ∧ (∃ t, exec (.oneStep 1 .forward .single) { ready with rpm1 := 1 } = .next t) ∧
    ({ ready with rpm1 := 1 } : State).rpm .one ≠ 0 := ⟨⟨_, rfl⟩, by decide, ⟨_, rfl⟩, by decide⟩

theorem witness_OtherDeviceRegistersUnchanged : (∃ t, exec (.setPin 0 1) ready = .next t) ∧
    (0x0A : Byte) ∉ writableOffsets ready (.setPin 0 1) ∧ (0x05 : Byte) ∉ writableOffsets ready (.setPin 0 1) :=
  ⟨⟨_, rfl⟩, by decide, by decide⟩

theorem witness_CommandsAccessOnlyTheirRegisters : ∃ t, exec (.setPin 0 1) ready = .next t ∧
    t.trace = ready.trace ++ on 0x06 := ⟨_, rfl, by decide⟩

theorem witness_TransactionCountsOfCompletedCommands : ∃ t, exec (.setFreq 60) ready = .next t ∧
    t.trace = ready.trace ++ [.read 0x00 0x81, .write 0x00 0x11, .write 0xFE 0x65, .write 0x00 0x81, .wait 5,
      .write 0x00 0x81] ∧ t.responses = ready.responses ++ [0x0000] ∧ statusField 0x0000 = 0x00 :=
  ⟨_, rfl, by decide, by decide, by decide⟩

theorem witness_OutcomesOfEarlierCommandsAreNeverRead : ∃ t, exec (.setAll 0 4096) ready = .next t := ⟨_, rfl⟩

theorem witness_SpeedAndFrequencyAreNeverRead : ∃ t, exec (.step 1 .forward .double 1) ready = .next t := ⟨_, rfl⟩

/-- The invariant holds in a state with a frequency and an image, and a step takes it further. -/
theorem witness_StepKeepsTheInvariant : ready.Inv ∧ ∃ t, step ready = .next t :=
  ⟨⟨by decide, by decide, by decide, by decide, by decide, by decide, by decide⟩, ⟨_, rfl⟩⟩

theorem witness_ResetMeetsTheInvariant : Params.standard.legal = true := by decide

theorem witness_StepKeepsTheImageCanonical : unfinished.img.wf = true ∧ ∃ t, step unfinished = .next t :=
  ⟨by decide, ⟨_, rfl⟩⟩

theorem witness_DutyBytesOfAWindow : (4096 : Word16).toNat ≤ 4096 ∧ (4095 : Word16).toNat ≤ 4096 := by decide

theorem witness_ChannelRegistersAreDistinct :
    (DevReg.led 15 .offH).offset = 0x45 ∧ (DevReg.led 15 .offH).offset = (DevReg.led 15 .offH).offset := by decide

theorem witness_PrescaleIsTheRoundedFormula : (1600 : Word16) ≠ 0 ∧ 0 < 1600 ∧ prescaleInt 1600 = 3 ∧ ready.Ready ∧
    prescaleOf 1744 = none := by decide

theorem witness_PrescaleNeverTies : 0 < 1743 := by decide

theorem witness_DoubleForwardReturnsOnlyFromOddIndex :
    oddIndex 4 = true ∧ oddIndex 0 = false ∧ 1 ≤ 1 := by decide

theorem witness_DoubleBackwardUndoesForwardOnlyFromOddIndex :
    oddIndex 31 = true ∧ 3 ≤ 3 ∧ oddIndex 3 = false ∧ 1 ≤ 3 := by decide

theorem witness_SingleMirrorsDouble : oddIndex 24 = false ∧ 1 ≤ 1 := by decide

theorem witness_OnlyMicrostepChangesTheLowBits : Style.interleave ≠ .microstep := by decide

theorem witness_DoubleLandsOnOddIndex : 1 ≤ 1 := by decide

theorem witness_ValidFrequenciesAre24To1743 :
    1527 ≤ (1527 : Word16).toNat ∧ (1743 : Word16).toNat ≤ 1743 := by decide

theorem witness_IllegalConfigurationIsRefused :
    PinMap.construct 15 0 15 0 15 0 = some ⟨15, 0, 15, 0, 15, 0⟩ ∧ stepsPerRevOf 1 = some 1 ∧
    stepsPerRevOf 65535 = some 65535 := by decide

theorem witness_SecondsPerStepAfterSetSpeed :
    ready.rpm .one = 0 ∧ ready.Ready ∧ axisOf 1 = some .one ∧ (30 : Word16) ≠ 0 ∧
    ∃ t, exec (.setSpeed 1 30) ready = .next t :=
  ⟨by decide, by decide, by decide, by decide, ⟨_, rfl⟩⟩

theorem witness_AllTrafficGoesToTheDeviceAddress :
    (∃ t, exec (.setPin 0 1) ready = .next t) ∧
    (0x60, Event.write 0x06 0) ∈ ({ ready with trace := on 0x06 } : State).busTraffic :=
  ⟨⟨_, rfl⟩, by decide⟩

end Sys2Proof.Tests
end

section
/-! A command line by line (spec/10_state.md R48): what one `tick` can do, that it keeps where the command ends, and
that the command runs out of ticks. -/

namespace Sys2Proof.Machine

/-! ### What running whole comes to -/

theorem finish_of_idle {s : State} (h : s.position = .idle) : finish s = s := by simp [finish, h]

theorem finish_of_running {s : State} {ops : List MicroOp} {loop : Option StepLoop} {result : Byte}
    (h : s.position = .running ops loop result) :
    finish s = closeCommand result ((runOps ops s).andThen (runLoop loop)) := by simp [finish, h]

/-- At whatever position the command stands, only the lines still to run decide where it ends. -/
theorem finish_at_running (s : State) (ops : List MicroOp) (loop : Option StepLoop) (result : Byte) :
    finish { s with position := .running ops loop result } =
      closeCommand result ((runOps ops s).andThen (runLoop loop)) := carryOut_run ops loop result s

theorem finish_respond (st : Status) (r : Byte) (s : State) : finish (respond st r s) = respond st r s :=
  finish_of_idle (respond_position s st r)

/-! ### What one tick can do -/

/-- Everything a tick can do: nothing in an idle block; a line that is done or whose transaction fails; and, with no
line left, the OK response or the start of STEP's next iteration. -/
inductive Ticked (s : State) : State → Prop where
  | idle (h : s.position = .idle) : Ticked s s
  | lineDone {op : MicroOp} {ops : List MicroOp} {loop : Option StepLoop} {result : Byte} {u : State}
      (h : s.position = .running (op :: ops) loop result) (hp : op.perform s = .done u) :
      Ticked s { u with position := .running ops loop result }
  | lineFailed {op : MicroOp} {ops : List MicroOp} {loop : Option StepLoop} {result reg : Byte} {u : State}
      (h : s.position = .running (op :: ops) loop result) (hp : op.perform s = .failed u reg) :
      Ticked s (respond .busError reg u)
  | responded {loop : Option StepLoop} {result : Byte} (h : s.position = .running [] loop result)
      (hl : runLoop loop s = .done s) : Ticked s (respond .ok result s)
  | nextIteration {a : Axis} {dir : Direction} {style : Style} {n : Nat} {result : Byte}
      (h : s.position = .running [] (some ⟨a, dir, style, n + 1⟩) result) :
      Ticked s { s with position := .running (oneStepOps a dir style s) (some ⟨a, dir, style, n⟩) result }

theorem ticked_of_line {s : State} {op : MicroOp} {ops : List MicroOp} {loop : Option StepLoop} {result : Byte}
    (h : s.position = .running (op :: ops) loop result) : Ticked s (tick s) := by
  cases hp : op.perform s with
  | done u =>
    have ht : tick s = { u with position := .running ops loop result } := by
      simp [tick, h, perform_at, hp, OpResult.at]
    exact ht ▸ .lineDone h hp
  | failed u reg =>
    have ht : tick s = respond .busError reg u := by
      simp [tick, h, perform_at, hp, OpResult.at, respond]
    exact ht ▸ .lineFailed h hp

theorem ticked_of_no_line {s : State} {loop : Option StepLoop} {result : Byte}
    (h : s.position = .running [] loop result) : Ticked s (tick s) := by
  match loop with
  | none =>
    have ht : tick s = respond .ok result s := by simp [tick, h]
    exact ht ▸ .responded h rfl
  | some ⟨_, _, _, 0⟩ =>
    have ht : tick s = respond .ok result s := by simp [tick, h]
    exact ht ▸ .responded h rfl
  | some ⟨a, dir, style, n + 1⟩ =>
    have ht : tick s =
        { s with position := .running (oneStepOps a dir style s) (some ⟨a, dir, style, n⟩) result } := by
      simp [tick, h]
    exact ht ▸ .nextIteration h

/-- The one case analysis of `tick` from which its other facts follow. -/
theorem ticked_tick (s : State) : Ticked s (tick s) := by
  cases h : s.position with
  | idle =>
    have ht : tick s = s := by simp [tick, h]
    exact ht.symm ▸ .idle h
  | running ops loop result =>
    cases ops with
    | nil => exact ticked_of_no_line h
    | cons op ops => exact ticked_of_line h

theorem Ticked.finish_eq {s t : State} (h : Ticked s t) : finish t = finish s := by
  cases h with
  | idle => rfl
  | lineDone h hp => rw [finish_at_running, finish_of_running h, runOps_cons, hp, andThen_done]
  | lineFailed h hp =>
    rw [finish_respond, finish_of_running h, runOps_cons, hp, andThen_failed, andThen_failed, closeCommand, raise_eq]
  | responded h hl => rw [finish_respond, finish_of_running h, runOps_nil, andThen_done, hl, closeCommand]
  | nextIteration h =>
    rw [finish_at_running, finish_of_running h, runOps_nil, andThen_done]
    rfl

theorem Ticked.trace_eq {s t : State} (h : Ticked s t) : t.trace = s.trace ∨ ∃ e, t.trace = s.trace ++ [e] := by
  have hline {op : MicroOp} {r : OpResult} (hp : op.perform s = r) :
      r.state.trace = s.trace ∨ ∃ e, r.state.trace = s.trace ++ [e] := by
    obtain ⟨-, -, -, -, htrace⟩ := perform_keeps op s
    exact hp ▸ htrace
  cases h with
  | idle => exact .inl rfl
  | lineDone _ hp => exact hline hp
  | lineFailed _ hp => exact hline hp
  | responded => exact .inl rfl
  | nextIteration => exact .inl rfl

/-! ### A command runs out of ticks -/

theorem length_writePin (pin : Channel) (v : Bool) : (writePin pin v).length = 4 := by cases v <;> rfl

/-- An iteration of STEP has one line for the phase and sixteen for the four pins (R184, R186). -/
theorem length_oneStepOps (a : Axis) (dir : Direction) (style : Style) (s : State) :
    (oneStepOps a dir style s).length = 17 := by
  simp [oneStepOps, stepTo, coilWrite, length_writePin]

/-- The ticks until the command in progress has responded, if no transaction fails: one for each line, eighteen for each
iteration (its start and its lines), and one for the response. -/
def Position.ticksLeft : Position → Nat
  | .idle => 0
  | .running ops none _ => ops.length + 1
  | .running ops (some l) _ => ops.length + 18 * l.left + 1

theorem ticksLeft_running_pos (ops : List MicroOp) (loop : Option StepLoop) (result : Byte) :
    0 < (Position.running ops loop result).ticksLeft := by
  cases loop <;> exact Nat.succ_pos _

theorem ticksLeft_line (op : MicroOp) (ops : List MicroOp) (loop : Option StepLoop) (result : Byte) :
    (Position.running ops loop result).ticksLeft < (Position.running (op :: ops) loop result).ticksLeft := by
  cases loop <;> simp [Position.ticksLeft]

theorem Ticked.ticksLeft_lt {s t : State} (h : Ticked s t) (hs : s.position ≠ .idle) :
    t.position.ticksLeft < s.position.ticksLeft := by
  cases h with
  | idle h => exact absurd h hs
  | lineDone h => rw [h]; exact ticksLeft_line _ _ _ _
  | lineFailed h => rw [h]; exact ticksLeft_running_pos _ _ _
  | responded h => rw [h]; exact ticksLeft_running_pos _ _ _
  | nextIteration h =>
    rw [h]
    simp only [Position.ticksLeft, length_oneStepOps, List.length_nil]
    omega

/-- Ticking reaches the state in which the command run whole ends. -/
theorem exists_iterate_tick_eq_finish (s : State) : ∃ n, tick^[n] s = finish s := by
  by_cases h : s.position = .idle
  · exact ⟨0, (finish_of_idle h).symm⟩
  · have hlt := (ticked_tick s).ticksLeft_lt h
    obtain ⟨n, hn⟩ := exists_iterate_tick_eq_finish (tick s)
    exact ⟨n + 1, hn.trans (ticked_tick s).finish_eq⟩
termination_by s.position.ticksLeft

/-- Settles O12: each case of a tick keeps where the command ends and adds at most one event, and the ticks left go
down, so ticking reaches that end. -/
theorem commandIsItsSequenceOfTransactions : Obligations.CommandIsItsSequenceOfTransactions :=
  ⟨fun s => (ticked_tick s).finish_eq, fun s => (ticked_tick s).trace_eq, exists_iterate_tick_eq_finish⟩

end Sys2Proof.Machine
end

section
/-! The frames of a command (spec/10_state.md): what each command leaves unchanged, each from what its lines leave
unchanged. -/

namespace Sys2Proof.Machine

/-! ### From lines to the state after the response -/

/-- A relation that composes, holds over every response and over every line command `i` may run, holds over the whole
command. -/
theorem exec_relates {R : State → State → Prop} (hrefl : ∀ s, R s s) (htrans : ∀ {s t u}, R s t → R t u → R s u)
    (hrespond : ∀ st info u, R u (respond st info u)) {i : Instr} {s t : State} (h : exec i s = .next t)
    (hline : ∀ op, Allowed s i op → ∀ s', R s' (op.perform s').state) : R s t := by
  obtain ⟨u, st, info, rfl, hu, -⟩ := exec_induct hrefl htrans h fun op hop s' _ => hline op hop s'
  exact htrans hu (hrespond st info u)

/-- What every response and every line command `i` may run leave unchanged, the command leaves unchanged. -/
theorem exec_keeps {α : Type} (g : State → α) (hrespond : ∀ st info u, g (respond st info u) = g u)
    {i : Instr} {s t : State} (h : exec i s = .next t)
    (hline : ∀ op, Allowed s i op → ∀ s', g (op.perform s').state = g s') : g t = g s :=
  exec_relates (R := fun a b => g b = g a) (fun _ => rfl) (fun h1 h2 => h2.trans h1) hrespond h hline

/-! ### The registers, one by one -/

variable {i : Instr} {s t : State}

theorem exec_position (h : exec i s = .next t) : t.position = s.position := by
  obtain ⟨u, st, info, rfl, -⟩ := exec_induct (R := fun _ _ => True) (fun _ => trivial) (fun _ _ => trivial) h
    fun _ _ _ _ => trivial
  rw [respond_position, (exec_eq_next h).1]

theorem exec_params (h : exec i s = .next t) : t.params = s.params :=
  exec_keeps State.params (fun _ _ _ => rfl) h fun op _ s' => (perform_keeps op s').2.1

theorem exec_commands (h : exec i s = .next t) : t.commands = s.commands :=
  exec_keeps State.commands (fun _ _ _ => rfl) h fun op _ s' => (perform_keeps op s').2.2.1

/-- Only ONE_STEP and STEP naming the axis write its phase (R33). -/
theorem exec_phase {a : Axis} (h : exec i s = .next t)
    (h1 : ∀ axis dir style, i = .oneStep axis dir style → axisOf axis ≠ some a)
    (h2 : ∀ axis dir style count, i = .step axis dir style count → axisOf axis ≠ some a) :
    t.phase a = s.phase a := by
  refine exec_keeps (·.phase a) (fun st info u => respond_phase u st info a) h fun op hop s' => ?_
  refine perform_phase (fun v hv => ?_) s'
  subst hv
  obtain ⟨axis, dir, style, hi, ha⟩ | ⟨axis, dir, style, count, hi, ha⟩ := hop
  · exact h1 axis dir style hi ha
  · exact h2 axis dir style count hi ha

/-- Only SET_SPEED naming the axis writes its speed (R34). -/
theorem exec_rpm {a : Axis} (h : exec i s = .next t)
    (h1 : ∀ axis rpm, i = .setSpeed axis rpm → axisOf axis ≠ some a) : t.rpm a = s.rpm a := by
  refine exec_keeps (·.rpm a) (fun st info u => respond_rpm u st info a) h fun op hop s' => ?_
  refine perform_rpm (fun v hv => ?_) s'
  subst hv
  obtain ⟨-, axis, hi, ha⟩ := hop
  exact h1 axis v hi ha

/-- A line a command may run sets no speed to 0 (R191, R239). -/
theorem perform_rpm_ne_zero {op : MicroOp} (hop : Allowed s i op) {s' : State} {a : Axis} (h : s'.rpm a ≠ 0) :
    (op.perform s').state.rpm a ≠ 0 := by
  by_cases hv : ∃ v, op = .setRpm a v
  · obtain ⟨v, rfl⟩ := hv
    change (s'.setRpm a v).rpm a ≠ 0
    rw [setRpm_rpm_same]
    exact hop.1
  · rwa [perform_rpm (fun v he => hv ⟨v, he⟩) s']

theorem exec_rpm_ne_zero {a : Axis} (h : exec i s = .next t) : s.rpm a ≠ 0 → t.rpm a ≠ 0 :=
  exec_relates (R := fun x y => x.rpm a ≠ 0 → y.rpm a ≠ 0) (fun _ => id) (fun h1 h2 => h2 ∘ h1)
    (fun st info u hu => by rwa [respond_rpm]) h fun _ hop _ => perform_rpm_ne_zero hop

/-- Only INIT writes `initialized` (R36). -/
theorem exec_initialized (h : exec i s = .next t) (hi : ∀ hz, i ≠ .init hz) : t.initialized = s.initialized := by
  refine exec_keeps State.initialized (fun _ _ _ => rfl) h fun op hop s' => ?_
  refine perform_initialized (fun v hv => ?_) s'
  subst hv
  obtain ⟨hz, hz'⟩ := hop
  exact hi hz hz'

/-- Only INIT and SET_FREQ write the frequency and the prescale (R37). -/
theorem exec_frequency (h : exec i s = .next t) (hi : ∀ hz, i ≠ .init hz ∧ i ≠ .setFreq hz) :
    t.freqHz = s.freqHz ∧ t.prescale = s.prescale := by
  refine Prod.mk.inj (exec_keeps (fun x => (x.freqHz, x.prescale)) (fun _ _ _ => rfl) h fun op hop s' => ?_)
  refine Prod.ext_iff.mpr (perform_frequency (fun hz p he => ?_) s')
  subst he
  exact hop.1.elim (hi hz).1 (hi hz).2

/-- Only INIT and SET_FREQ read MODE1 (R62). -/
theorem exec_held (h : exec i s = .next t) (hi : ∀ hz, i ≠ .init hz ∧ i ≠ .setFreq hz) : t.held = s.held := by
  refine exec_keeps State.held (fun _ _ _ => rfl) h fun op hop s' => ?_
  refine perform_held (fun he => ?_) s'
  subst he
  obtain ⟨hz, hz'⟩ := hop
  exact hz'.elim (hi hz).1 (hi hz).2

/-- A command only adds to the trace, and only events of R62's table. -/
theorem exec_trace (h : exec i s = .next t) : ∃ es, t.trace = s.trace ++ es ∧ ∀ e ∈ es, e.legal = true := by
  refine exec_relates (R := fun x y => ∃ es, y.trace = x.trace ++ es ∧ ∀ e ∈ es, e.legal = true)
    (fun _ => ⟨[], by simp, by simp⟩) ?_ (fun _ _ _ => ⟨[], by simp, by simp⟩) h fun op hop s' => ?_
  · rintro x y z ⟨es, h1, h2⟩ ⟨es', h3, h4⟩
    exact ⟨es ++ es', by rw [h3, h1, List.append_assoc], fun e he => (List.mem_append.mp he).elim (h2 e) (h4 e)⟩
  · obtain ⟨es, htrace, hes⟩ := perform_trace hop s'
    exact ⟨es, htrace, fun e he => (hes e he).1⟩

/-! ### The frames stated -/

/-- Settles O33, from the frame of the phase. -/
theorem phaseWrittenOnlyByItsOwnSteps : Obligations.PhaseWrittenOnlyByItsOwnSteps :=
  ⟨fun _ _ _ _ h h1 h2 => exec_phase h h1 h2, fun _ a => by cases a <;> rfl⟩

/-- Settles O34, register by register. -/
theorem otherRegistersWrittenOnlyByTheirCommands : Obligations.OtherRegistersWrittenOnlyByTheirCommands :=
  fun _ _ _ h => ⟨fun _ h1 => exec_rpm h h1, fun _ => exec_rpm_ne_zero h, exec_initialized h,
    fun hi => ⟨(exec_frequency h hi).1, (exec_frequency h hi).2, exec_held h hi⟩,
    exec_params h, exec_commands h, exec_position h⟩

/-- Settles O59: the traffic is the trace's transactions at the address, and a command changes no parameter and only
adds to the trace. -/
theorem allTrafficGoesToTheDeviceAddress : Obligations.AllTrafficGoesToTheDeviceAddress := by
  refine ⟨fun s x hx => ?_, fun i s t h => ⟨by rw [exec_params h], ?_⟩⟩
  · obtain ⟨e, -, rfl⟩ := List.mem_map.mp hx
    rfl
  · obtain ⟨es, htrace, -⟩ := exec_trace h
    simp [State.busTraffic, htrace, exec_params h]

/-! ### The speed after SET_SPEED -/

/-- SET_SPEED stores the speed before its first transaction (R191). -/
theorem execSetSpeed_rpm {axis : Byte} {a : Axis} {rpm : Word16} (hinit : s.initialized = true)
    (ha : axisOf axis = some a) (hr : rpm ≠ 0) (h : exec (.setSpeed axis rpm) s = .next t) : t.rpm a = rpm := by
  have hverdict : verdictOf (.setSpeed axis rpm) s = .run (.setRpm a rpm ::
      (writePin (s.params.pinMap a).pwma true ++ writePin (s.params.pinMap a).pwmb true)) none 0 := by
    rw [verdictOf, needInit_of_initialized hinit, needAxis_of_some ha, if_neg hr, List.cons_append]
  have hwrites : ∀ op ∈ writePin (s.params.pinMap a).pwma true ++ writePin (s.params.pinMap a).pwmb true,
      ∀ v, op ≠ .setRpm a v := by
    rintro op hop v rfl
    obtain hop | hop := List.mem_append.mp hop <;> obtain ⟨reg, b, hw, -⟩ := writePin_lines hop <;> cases hw
  obtain ⟨-, rfl⟩ := exec_eq_next h
  rw [hverdict, carryOut_run_none]
  obtain ⟨st, info, hclose, -⟩ := closeCommand_eq 0 (runOps (writePin (s.params.pinMap a).pwma true ++
    writePin (s.params.pinMap a).pwmb true) (s.setRpm a rpm))
  rw [runOps_cons_done _ rfl, hclose, respond_rpm]
  exact (runOps_induct (R := fun x y => y.rpm a = x.rpm a) (fun _ => rfl) (fun h1 h2 => h2.trans h1) _
    (fun op hop => perform_rpm (hwrites op hop)) _).trans (setRpm_rpm_same s a rpm)

/-- What R35 and R191 say of the value, whatever the bus answers: the quotient is exact. -/
theorem execSetSpeed_secondsPerStep {axis : Byte} {a : Axis} {rpm : Word16} (hinit : s.initialized = true)
    (ha : axisOf axis = some a) (hr : rpm ≠ 0) (h : exec (.setSpeed axis rpm) s = .next t) :
    t.secondsPerStep a = some (60 / (((s.params.stepsPerRev a).toNat : Rat) * (rpm.toNat : Rat))) := by
  rw [State.secondsPerStep, execSetSpeed_rpm hinit ha hr h, if_neg hr, exec_params h, Nat.cast_mul]

/-- A block at reset whose `initialized` is set: 200 steps per revolution, and SET_SPEED passes its checks. -/
def initializedAtReset : State := { State.reset with initialized := true }

/-- Refutes O58: the quotient it claims is elaborated in the natural numbers and only the floor is cast to `Rat`, so
for 200 steps per revolution and 30 rpm it claims 0, where `secondsPerStep` is 1/100. The exact quotient holds:
`execSetSpeed_secondsPerStep`. -/
theorem not_secondsPerStepAfterSetSpeed : ¬ Obligations.SecondsPerStepAfterSetSpeed := by
  rintro ⟨-, h⟩
  have hexec := exec_of_idle (s := initializedAtReset) rfl (.setSpeed 1 30)
  have hclaim := h _ _ 1 .one 30 ⟨rfl, rfl⟩ rfl (by decide) hexec
  rw [execSetSpeed_secondsPerStep (a := .one) rfl rfl (by decide) hexec] at hclaim
  have hfloor : 60 / (((200 : Nat) : Rat) * ((30 : Nat) : Rat)) = ((60 / (200 * 30) : Nat) : Rat) :=
    Option.some.inj hclaim
  norm_num at hfloor

end Sys2Proof.Machine
end

section
/-! The frequency (spec/10_state.md R37) and the invariant of the states between commands. -/

namespace Sys2Proof.Machine

/-! ### The frequency follows the PRESCALE write -/

/-- Between `s` and `u` no response has been given, the trace has grown, and of the block's registers only the frequency
and the prescale may have changed: to `hz` and `p`, exactly if the write of PRESCALE is among the new events (R37). -/
def FollowsPrescale (hz : Word16) (p : Byte) (s u : State) : Prop :=
  u.responses = s.responses ∧ ∃ es, u.trace = s.trace ++ es ∧ u.observe = { s.observe with
    freqHz := if Event.write 0xFE p ∈ es then hz else s.freqHz
    prescale := if Event.write 0xFE p ∈ es then p else s.prescale }

theorem FollowsPrescale.refl (hz : Word16) (p : Byte) (s : State) : FollowsPrescale hz p s s :=
  ⟨rfl, [], by simp, by simp [State.observe]⟩

theorem FollowsPrescale.trans {hz : Word16} {p : Byte} {s t u : State} (hst : FollowsPrescale hz p s t)
    (htu : FollowsPrescale hz p t u) : FollowsPrescale hz p s u := by
  obtain ⟨hresp, es, htrace, hobs⟩ := hst
  obtain ⟨hresp', es', htrace', hobs'⟩ := htu
  refine ⟨hresp'.trans hresp, es ++ es', by rw [htrace', htrace, List.append_assoc], ?_⟩
  simp only [State.observe, Observation.mk.injEq] at hobs hobs' ⊢
  by_cases h1 : Event.write 0xFE p ∈ es <;> by_cases h2 : Event.write 0xFE p ∈ es' <;> simp_all

theorem offset_ne_prescale {reg : DevReg} (h : reg ≠ .prescale) : reg.offset ≠ 0xFE#8 := by
  cases reg with
  | mode1 => decide
  | mode2 => decide
  | led ch part => cases part <;> clear h <;> revert ch <;> decide
  | allLed part => cases part <;> decide
  | prescale => exact absurd rfl h

/-- A line that writes neither PRESCALE nor a register of the block. -/
def MicroOp.sparesPrescale : MicroOp → Bool
  | .write reg _ => reg != .prescale
  | .readMode1 => true
  | .wait _ => true
  | _ => false

theorem followsPrescale_perform {op : MicroOp} (hop : op.sparesPrescale = true) (hz : Word16) (p : Byte) (s : State) :
    FollowsPrescale hz p s (op.perform s).state := by
  cases op with
  | write reg src =>
    have hreg := (offset_ne_prescale (reg := reg) (by simpa [MicroOp.sparesPrescale] using hop)).symm
    obtain ⟨-, h⟩ | ⟨-, h⟩ := perform_write_cases reg src s <;> rw [h]
    · exact ⟨rfl, [.write reg.offset (src.eval s.held)], rfl, by simp [State.observe, OpResult.state, hreg]⟩
    · exact ⟨rfl, [_], rfl, by simp [State.observe, OpResult.state]⟩
  | readMode1 =>
    obtain ⟨-, b, h⟩ | ⟨-, h⟩ := perform_readMode1_cases s <;> rw [h] <;>
      exact ⟨rfl, [_], rfl, by simp [State.observe, OpResult.state]⟩
  | wait ms => exact ⟨rfl, [.wait ms], rfl, by simp [State.observe, MicroOp.perform, OpResult.state]⟩
  | setInitialized v => cases hop
  | setFreq hz p => cases hop
  | setRpm a v => cases hop
  | setPhase a v => cases hop

theorem followsPrescale_initSeq (params : Params) (hz : Word16) (p : Byte) (s : State) :
    FollowsPrescale hz p s (runOps (initSeq params) s).state := by
  refine runOps_induct (FollowsPrescale.refl hz p) FollowsPrescale.trans _ (fun op hop => ?_) s
  have hspares : (initSeq params).all MicroOp.sparesPrescale = true := rfl
  exact followsPrescale_perform (List.all_eq_true.mp hspares op hop) hz p

/-- FreqSeq sets the frequency with the PRESCALE write, and has set it if it is done. -/
theorem followsPrescale_freqSeq (params : Params) (hz : Word16) (p : Byte) (s : State) :
    FollowsPrescale hz p s (runOps (freqSeq params hz p) s).state ∧
    ∀ u, runOps (freqSeq params hz p) s = .done u → u.freqHz = hz ∧ u.prescale = p := by
  obtain ⟨old, -, hdone, hfailed⟩ := freqSeq_run s params hz p
  obtain hok | ⟨k, hk, hf⟩ := okFor_or_failsAfter s.bus 5
  · rw [hdone hok]
    refine ⟨⟨rfl, freqEvents params p old, rfl, by simp [State.observe, State.saw, freqEvents, OpResult.state]⟩, ?_⟩
    rintro u ⟨⟩
    exact ⟨rfl, rfl⟩
  · have hlen : k < (transactions (freqEvents params p old)).length := hk
    rw [hfailed k _ (List.getElem?_eq_getElem hlen) hf]
    refine ⟨⟨rfl, eventsBefore k (freqEvents params p old) ++ [_], List.append_assoc _ _ _, ?_⟩, by simp⟩
    interval_cases k <;>
      simp [State.observe, State.saw, OpResult.state, freqEvents, transactions, eventsBefore, Event.isTransaction,
        Event.failed, List.filter_cons]

/-- The same for the two sequences of INIT. -/
theorem followsPrescale_initSeq_freqSeq (params : Params) (hz : Word16) (p : Byte) (s : State) :
    FollowsPrescale hz p s (runOps (initSeq params ++ freqSeq params hz p) s).state ∧
    ∀ u, runOps (initSeq params ++ freqSeq params hz p) s = .done u → u.freqHz = hz ∧ u.prescale = p := by
  have hinit := followsPrescale_initSeq params hz p s
  rw [runOps_append]
  cases hr : runOps (initSeq params) s with
  | failed u reg => rw [hr] at hinit; exact ⟨hinit, by simp⟩
  | done u =>
    rw [hr] at hinit
    obtain ⟨hfreq, hset⟩ := followsPrescale_freqSeq params hz p u
    exact ⟨hinit.trans hfreq, hset⟩

/-! ### INIT and SET_FREQ -/

variable {s t : State} {hz : Word16} {p : Byte}

theorem execInit_eq (hp : prescaleOf hz = some p) (h : exec (.init hz) s = .next t) :
    t = closeCommand 0 ((runOps (initSeq s.params ++ freqSeq s.params hz p) { s with initialized := false }).andThen
      (runOps [.setInitialized true])) := by
  obtain ⟨-, rfl⟩ := exec_eq_next h
  rw [verdictOf, needPrescale_of_some hp, carryOut_run_none, runOps_append, List.cons_append,
    runOps_cons_done _ rfl]

theorem responseWord_busError_ne_zero (reg : Byte) : responseWord .busError reg ≠ 0x0000 := fun h =>
  absurd (statusField_responseWord .busError reg) (h ▸ by decide)

/-- INIT with a valid prescale sets the frequency with the PRESCALE write, and leaves `initialized` as it is answered;
initialized means the frequency is set. -/
theorem execInit_frequency (hp : prescaleOf hz = some p) (h : exec (.init hz) s = .next t) :
    (∃ (es : List Event) (r : Word16), t.trace = s.trace ++ es ∧ t.responses = s.responses ++ [r] ∧
      t.observe = { s.observe with
        initialized := r == 0x0000
        freqHz := if Event.write 0xFE p ∈ es then hz else s.freqHz
        prescale := if Event.write 0xFE p ∈ es then p else s.prescale }) ∧
    (t.initialized = true → t.freqHz = hz ∧ t.prescale = p) := by
  obtain ⟨hfollows, hset⟩ := followsPrescale_initSeq_freqSeq s.params hz p { s with initialized := false }
  have ht := execInit_eq hp h
  cases hr : runOps (initSeq s.params ++ freqSeq s.params hz p) { s with initialized := false } with
  | done u =>
    rw [hr] at hfollows hset ht
    subst ht
    obtain ⟨hresp, es, htrace, hobs⟩ := hfollows
    refine ⟨⟨es, _, htrace, congrArg (· ++ _) hresp, ?_⟩, fun _ => hset u rfl⟩
    exact congrArg (fun o : Observation => { o with initialized := true }) hobs
  | failed u reg =>
    rw [hr] at hfollows ht
    subst ht
    obtain ⟨hresp, es, htrace, hobs⟩ := hfollows
    refine ⟨⟨es, _, htrace, congrArg (· ++ _) hresp, ?_⟩, fun hi => ?_⟩
    · rw [beq_eq_false_iff_ne.mpr (responseWord_busError_ne_zero reg)]
      exact hobs
    · have hnot : u.initialized = false := congrArg Observation.initialized hobs
      exact absurd (hnot.symm.trans hi) Bool.false_ne_true

theorem execSetFreq_followsPrescale (hp : prescaleOf hz = some p) (hi : s.initialized = true)
    (h : exec (.setFreq hz) s = .next t) : ∃ u st info, t = respond st info u ∧ FollowsPrescale hz p s u := by
  obtain ⟨-, rfl⟩ := exec_eq_next h
  rw [verdictOf, needInit_of_initialized hi, needPrescale_of_some hp, carryOut_run_none]
  obtain ⟨st, info, hclose, -⟩ := closeCommand_eq 0 (runOps (freqSeq s.params hz p) s)
  exact ⟨_, st, info, hclose, (followsPrescale_freqSeq s.params hz p s).1⟩

/-- Settles O23: the PRESCALE write and the setting of the registers are one pair of lines of FreqSeq, and no other line
touches either. -/
theorem frequencyFollowsThePrescaleWrite : Obligations.FrequencyFollowsThePrescaleWrite := by
  refine fun s hz p hp => ⟨fun t h => (execInit_frequency hp h).1, fun t hi h => ?_⟩
  obtain ⟨u, st, info, rfl, -, es, htrace, hobs⟩ := execSetFreq_followsPrescale hp hi h
  exact ⟨es, htrace, hobs⟩

end Sys2Proof.Machine
end

section
/-! The invariant of the states between commands (spec/10_state.md R36, R37, R48): what a command does to each of its
parts, then the step. -/

namespace Sys2Proof.Machine

/-! ### The frequency and the prescale belong together -/

/-- The block has applied a frequency, with its prescale (R37, R132). -/
def State.Tuned (s : State) : Prop := prescaleOf s.freqHz = some s.prescale

variable {i : Instr} {s t : State}

theorem perform_tuned {op : MicroOp} (hop : Allowed s i op) (s' : State) :
    ((op.perform s').state.freqHz = s'.freqHz ∧ (op.perform s').state.prescale = s'.prescale) ∨
    (op.perform s').state.Tuned := by
  by_cases hf : ∃ hz p, op = .setFreq hz p
  · obtain ⟨hz, p, rfl⟩ := hf
    exact .inr hop.2
  · exact .inl (perform_frequency (fun hz p he => hf ⟨hz, p, he⟩) s')

/-- A command leaves the frequency and the prescale, or applies a valid pair. -/
theorem exec_tuned (h : exec i s = .next t) :
    (t.freqHz = s.freqHz ∧ t.prescale = s.prescale) ∨ t.Tuned := by
  refine exec_relates (R := fun x y => (y.freqHz = x.freqHz ∧ y.prescale = x.prescale) ∨ y.Tuned)
    (fun _ => .inl ⟨rfl, rfl⟩) ?_ (fun _ _ _ => .inl ⟨rfl, rfl⟩) h fun _ hop s' => perform_tuned hop s'
  rintro x y z hxy (⟨hf, hp⟩ | hz)
  · obtain ⟨hf', hp'⟩ | hy := hxy
    · exact .inl ⟨hf.trans hf', hp.trans hp'⟩
    · exact .inr (by rwa [State.Tuned, hf, hp])
  · exact .inr hz

theorem exec_keeps_tuned (h : exec i s = .next t) (hs : s.Tuned) : t.Tuned := by
  obtain ⟨hf, hp⟩ | ht := exec_tuned h
  · rwa [State.Tuned, hf, hp]
  · exact ht

/-- INIT sets `initialized` last, after its frequency; no other command sets it (R36, R140). -/
theorem exec_initialized_tuned (h : exec i s = .next t) (hs : s.initialized = true → s.Tuned)
    (ht : t.initialized = true) : t.Tuned := by
  by_cases hi : ∃ hz, i = .init hz
  · obtain ⟨hz, rfl⟩ := hi
    cases hp : prescaleOf hz with
    | none =>
      obtain ⟨-, rfl⟩ := exec_eq_next h
      rw [verdictOf, needPrescale_of_none hp] at ht ⊢
      exact hs ht
    | some p =>
      obtain ⟨hf, hpre⟩ := (execInit_frequency hp h).2 ht
      rwa [State.Tuned, hf, hpre]
  · rw [exec_initialized h fun hz he => hi ⟨hz, he⟩] at ht
    exact exec_keeps_tuned h (hs ht)

/-! ### The device image -/

/-- A line a command may run leaves the image or puts a byte at an offset of R62. -/
theorem perform_img_cases {op : MicroOp} (hop : Allowed s i op) (s' : State) :
    (op.perform s').state.img = s'.img ∨
    ∃ reg b, usedOffset reg = true ∧ (op.perform s').state.img = s'.img.write reg.toNat b := by
  by_cases hw : ∃ reg src, op = .write reg src
  · obtain ⟨reg, src, rfl⟩ := hw
    have hlegal := hop.2 0
    simp only [Event.legal, Bool.and_eq_true] at hlegal
    exact (perform_write_img reg src s').imp id fun h => ⟨_, _, hlegal.1, h⟩
  · exact .inl (perform_img (fun reg src he => hw ⟨reg, src, he⟩) s')

theorem exec_img_wf (h : exec i s = .next t) : s.img.wf = true → t.img.wf = true := by
  refine exec_relates (R := fun x y => x.img.wf = true → y.img.wf = true) (fun _ => id) (fun h1 h2 => h2 ∘ h1)
    (fun _ _ _ => id) h fun op hop s' hs' => ?_
  obtain himg | ⟨reg, b, -, himg⟩ := perform_img_cases hop s' <;> rw [himg]
  · exact hs'
  · exact Memory.wf_write reg b hs'

/-- The image lists only registers the block may write (R62, R73). -/
def Memory.Used (m : Memory) : Prop := ∀ c ∈ m, usedOffset (BitVec.ofNat 8 c.1) = true

theorem Memory.used_write {m : Memory} {reg : Byte} (hm : m.Used) (hreg : usedOffset reg = true) (b : Byte) :
    (m.write reg.toNat b).Used := by
  intro c hc
  obtain rfl | hc := Memory.mem_write hc
  · rwa [BitVec.ofNat_toNat, BitVec.setWidth_eq]
  · exact hm c hc

theorem exec_img_used (h : exec i s = .next t) : s.img.Used → t.img.Used := by
  refine exec_relates (R := fun x y => x.img.Used → y.img.Used) (fun _ => id) (fun h1 h2 => h2 ∘ h1)
    (fun _ _ _ => id) h fun op hop s' hs' => ?_
  obtain himg | ⟨reg, b, hreg, himg⟩ := perform_img_cases hop s' <;> rw [himg]
  · exact hs'
  · exact Memory.used_write hs' hreg b

/-! ### Commands and steps keep the invariant -/

theorem State.Inv.exec (hs : s.Inv) (h : exec i s = .next t) : t.Inv where
  idle := (exec_position h).trans hs.idle
  img_wf := exec_img_wf h hs.img_wf
  img_used := exec_img_used h hs.img_used
  trace_legal := by
    obtain ⟨es, htrace, hes⟩ := exec_trace h
    rw [htrace]
    exact fun e he => (List.mem_append.mp he).elim (hs.trace_legal e) (hes e)
  freq := by
    obtain ⟨hf, hp⟩ | ht := exec_tuned h
    · rw [hf, hp]; exact hs.freq
    · exact .inr ht
  init := exec_initialized_tuned h hs.init
  params := exec_params h ▸ hs.params

/-- The invariant says nothing of the host's commands and the responses. -/
theorem State.Inv.illegalWord (hs : s.Inv) : (illegalWord s).Inv := { hs with idle := rfl }

theorem State.Inv.withCommands (hs : s.Inv) (cs : List CommandWord) : ({ s with commands := cs } : State).Inv :=
  { hs with }

theorem step_waits (hidle : s.position = .idle) (hc : s.commands = []) : step s = .next s := by
  simp [step, hidle, takeCommand, hc]

theorem step_of_instr {w : CommandWord} {rest : List CommandWord} (hidle : s.position = .idle)
    (hc : s.commands = w :: rest) (hw : decode w = .instr i) : step s = exec i { s with commands := rest } := by
  simp [step, hidle, takeCommand, hc, hw]

theorem step_of_illegal {w : CommandWord} {rest : List CommandWord} {why : DecodeError} (hidle : s.position = .idle)
    (hc : s.commands = w :: rest) (hw : decode w = .illegal why) :
    step s = .next (illegalWord { s with commands := rest }) := by
  simp [step, hidle, takeCommand, hc, hw]

/-- Settles O40: an idle block waits, answers an illegal word, or runs a command, and each keeps the invariant. -/
theorem stepKeepsTheInvariant : Obligations.StepKeepsTheInvariant := by
  intro s t hs h
  cases hc : s.commands with
  | nil =>
    rw [step_waits hs.idle hc] at h
    cases h
    exact hs
  | cons w rest =>
    cases hw : decode w with
    | illegal why =>
      rw [step_of_illegal hs.idle hc hw] at h
      cases h
      exact (hs.withCommands rest).illegalWord
    | instr i =>
      rw [step_of_instr hs.idle hc hw] at h
      exact (hs.withCommands rest).exec h

/-- Settles O41: at reset the image and the trace are empty and no frequency is applied. -/
theorem resetMeetsTheInvariant : Obligations.ResetMeetsTheInvariant := fun _ hp =>
  { idle := rfl, img_wf := rfl, img_used := by simp [State.resetWith], trace_legal := by simp [State.resetWith],
    freq := .inl ⟨rfl, rfl⟩, init := by simp [State.resetWith], params := hp }

/-- Settles O6: it is the case of `step` for a word that decodes. -/
theorem stepRunsTheDecodedCommand : Obligations.StepRunsTheDecodedCommand :=
  fun _ _ _ _ => step_of_instr

end Sys2Proof.Machine
end

section
/-! What a command does not read (spec/10_state.md R32, R34, R37): two states that differ only in it stay so through
every line, so the two commands end alike. -/

namespace Sys2Proof.Machine

/-- The two results end alike, done or failed at the same offset, in related states. -/
inductive OpResult.Alike (S : State → State → Prop) : OpResult → OpResult → Prop where
  | done {s s' : State} (h : S s s') : Alike S (.done s) (.done s')
  | failed {s s' : State} (reg : Byte) (h : S s s') : Alike S (.failed s reg) (.failed s' reg)

/-- Related states agree on what a command's checks and STEP's iterations look at, and each line keeps them related. -/
structure Unread (S : State → State → Prop) : Prop where
  position : ∀ {s s'}, S s s' → s'.position = s.position
  initialized : ∀ {s s'}, S s s' → s'.initialized = s.initialized
  params : ∀ {s s'}, S s s' → s'.params = s.params
  phase : ∀ {s s'}, S s s' → ∀ a, s'.phase a = s.phase a
  perform : ∀ {s s'}, S s s' → ∀ op : MicroOp, (op.perform s).Alike S (op.perform s')

namespace Unread

variable {S : State → State → Prop} {s s' : State}

theorem oneStepOps_eq (hS : Unread S) (h : S s s') (a : Axis) (dir : Direction) (style : Style) :
    oneStepOps a dir style s' = oneStepOps a dir style s := by
  rw [oneStepOps, oneStepOps, hS.params h, hS.phase h]

theorem verdictOf_eq (hS : Unread S) (h : S s s') (i : Instr) : verdictOf i s' = verdictOf i s := by
  cases i <;>
    simp only [verdictOf, needInit, hS.initialized h, hS.params h, hS.phase h, hS.oneStepOps_eq h]

theorem andThen {r r' : OpResult} {f : State → OpResult} (hr : r.Alike S r')
    (hf : ∀ {s s'}, S s s' → (f s).Alike S (f s')) : (r.andThen f).Alike S (r'.andThen f) := by
  cases hr with
  | done h => exact hf h
  | failed reg h => exact .failed reg h

theorem runOps (hS : Unread S) (h : S s s') (ops : List MicroOp) :
    (Machine.runOps ops s).Alike S (Machine.runOps ops s') := by
  induction ops generalizing s s' with
  | nil => exact .done h
  | cons op ops ih => exact andThen (hS.perform h op) ih

theorem repeatSteps (hS : Unread S) (h : S s s') (a : Axis) (dir : Direction) (style : Style) (n : Nat) :
    (Machine.repeatSteps a dir style n s).Alike S (Machine.repeatSteps a dir style n s') := by
  induction n generalizing s s' with
  | zero => exact .done h
  | succ n ih =>
    refine andThen ?_ ih
    rw [oneStepBody, oneStepBody, hS.oneStepOps_eq h]
    exact hS.runOps h _

theorem runLoop (hS : Unread S) (h : S s s') (loop : Option StepLoop) :
    (Machine.runLoop loop s).Alike S (Machine.runLoop loop s') := by
  cases loop with
  | none => exact .done h
  | some l => exact hS.repeatSteps h l.axis l.dir l.style l.left

theorem closeCommand_alike (result : Byte) {r r' : OpResult} (h : r.Alike S r') :
    ∃ u u' st info, S u u' ∧ closeCommand result r = respond st info u ∧
      closeCommand result r' = respond st info u' := by
  cases h with
  | done h => exact ⟨_, _, .ok, result, h, rfl, rfl⟩
  | failed reg h => exact ⟨_, _, .busError, reg, h, rfl, rfl⟩

/-- The command gives related states the same response, and the states before the response are related. -/
theorem exec (hS : Unread S) (h : S s s') {i : Instr} {t : State} (ht : exec i s = .next t) :
    ∃ u u' st info, S u u' ∧ t = respond st info u ∧ Machine.exec i s' = .next (respond st info u') := by
  obtain ⟨hidle, rfl⟩ := exec_eq_next ht
  rw [exec_of_idle ((hS.position h).trans hidle), hS.verdictOf_eq h]
  cases verdictOf i s with
  | raise e info => exact ⟨s, s', e, info, h, rfl, rfl⟩
  | run ops loop result =>
    rw [carryOut_run, carryOut_run]
    obtain ⟨u, u', st, info, hu, hclose, hclose'⟩ :=
      closeCommand_alike result (andThen (hS.runOps h ops) fun h => hS.runLoop h loop)
    exact ⟨u, u', st, info, hu, hclose, congrArg _ hclose'⟩

end Unread

/-! ### The trace, the responses and the host's commands -/

/-- The second state has another past: another trace before the events since, other responses and other commands of the
host. -/
def OtherPast (tr₀ tr : List Event) (rs₀ rs : List Word16) (cs : List CommandWord) (s s' : State) : Prop :=
  s.responses = rs₀ ∧ ∃ es, s.trace = tr₀ ++ es ∧ s' = { s with trace := tr ++ es, responses := rs, commands := cs }

theorem perform_otherPast {tr₀ tr : List Event} {rs₀ rs : List Word16} {cs : List CommandWord} {s s' : State}
    (h : OtherPast tr₀ tr rs₀ rs cs s s') (op : MicroOp) :
    (op.perform s).Alike (OtherPast tr₀ tr rs₀ rs cs) (op.perform s') := by
  obtain ⟨hrs, es, hes, rfl⟩ := h
  have hadd (e : Event) : s.trace ++ [e] = tr₀ ++ (es ++ [e]) := by rw [hes, List.append_assoc]
  have hanswer (reg : Byte) :
      ({ s with trace := tr ++ es, responses := rs, commands := cs } : State).busAnswer reg = s.busAnswer reg := rfl
  cases op with
  | write reg src =>
    simp only [MicroOp.perform, busWrite, hanswer]
    cases s.busAnswer reg.offset with
    | fail => exact .failed _ ⟨hrs, es ++ [_], hadd _, by simp [State.record]⟩
    | ok b => exact .done ⟨hrs, es ++ [_], hadd _, by simp [State.record]⟩
  | readMode1 =>
    simp only [MicroOp.perform, busReadMode1, hanswer]
    cases s.busAnswer DevReg.mode1.offset with
    | fail => exact .failed _ ⟨hrs, es ++ [_], hadd _, by simp [State.record]⟩
    | ok b => exact .done ⟨hrs, es ++ [_], hadd _, by simp [State.record]⟩
  | wait ms => exact .done ⟨hrs, es ++ [_], hadd _, by simp [waitMs]⟩
  | setInitialized v => exact .done ⟨hrs, es, hes, rfl⟩
  | setFreq hz p => exact .done ⟨hrs, es, hes, rfl⟩
  | setRpm a v => cases a <;> exact .done ⟨hrs, es, hes, rfl⟩
  | setPhase a v => cases a <;> exact .done ⟨hrs, es, hes, rfl⟩

theorem unread_otherPast (tr₀ tr : List Event) (rs₀ rs : List Word16) (cs : List CommandWord) :
    Unread (OtherPast tr₀ tr rs₀ rs cs) where
  position := by rintro _ _ ⟨-, es, -, rfl⟩; rfl
  initialized := by rintro _ _ ⟨-, es, -, rfl⟩; rfl
  params := by rintro _ _ ⟨-, es, -, rfl⟩; rfl
  phase := by rintro _ _ ⟨-, es, -, rfl⟩ a; cases a <;> rfl
  perform := perform_otherPast

/-- Settles O38: no line reads the past, and each adds to it alike. -/
theorem outcomesOfEarlierCommandsAreNeverRead : Obligations.OutcomesOfEarlierCommandsAreNeverRead := by
  intro i s t tr rs cs h
  obtain ⟨u, u', st, info, ⟨hrs, es, htrace, rfl⟩, rfl, hexec⟩ :=
    (unread_otherPast s.trace tr s.responses rs cs).exec (i := i) (t := t)
      (s' := { s with trace := tr, responses := rs, commands := cs }) ⟨rfl, [], by simp, by simp⟩ h
  exact ⟨es, responseWord st info, htrace, congrArg (· ++ _) hrs, hexec⟩

/-! ### The speeds, the frequency and the prescale -/

/-- The second state has other speeds, another frequency and another prescale. -/
def OtherSettings (s s' : State) : Prop :=
  ∃ r1 r2 f p, s' = { s with rpm1 := r1, rpm2 := r2, freqHz := f, prescale := p }

theorem perform_otherSettings {s s' : State} (h : OtherSettings s s') (op : MicroOp) :
    (op.perform s).Alike OtherSettings (op.perform s') := by
  obtain ⟨r1, r2, f, p, rfl⟩ := h
  have hanswer (reg : Byte) :
      ({ s with rpm1 := r1, rpm2 := r2, freqHz := f, prescale := p } : State).busAnswer reg = s.busAnswer reg := rfl
  cases op with
  | write reg src =>
    simp only [MicroOp.perform, busWrite, hanswer]
    cases s.busAnswer reg.offset with
    | fail => exact .failed _ ⟨r1, r2, f, p, rfl⟩
    | ok b => exact .done ⟨r1, r2, f, p, rfl⟩
  | readMode1 =>
    simp only [MicroOp.perform, busReadMode1, hanswer]
    cases s.busAnswer DevReg.mode1.offset with
    | fail => exact .failed _ ⟨r1, r2, f, p, rfl⟩
    | ok b => exact .done ⟨r1, r2, f, p, rfl⟩
  | wait ms => exact .done ⟨r1, r2, f, p, rfl⟩
  | setInitialized v => exact .done ⟨r1, r2, f, p, rfl⟩
  | setFreq hz q => exact .done ⟨r1, r2, hz, q, rfl⟩
  | setRpm a v =>
    cases a with
    | one => exact .done ⟨v, r2, f, p, rfl⟩
    | two => exact .done ⟨r1, v, f, p, rfl⟩
  | setPhase a v => cases a <;> exact .done ⟨r1, r2, f, p, rfl⟩

theorem unread_otherSettings : Unread OtherSettings where
  position := by rintro _ _ ⟨r1, r2, f, p, rfl⟩; rfl
  initialized := by rintro _ _ ⟨r1, r2, f, p, rfl⟩; rfl
  params := by rintro _ _ ⟨r1, r2, f, p, rfl⟩; rfl
  phase := by rintro _ _ ⟨r1, r2, f, p, rfl⟩ a; cases a <;> rfl
  perform := perform_otherSettings

/-- Settles O39: no line reads the settings, and the lines that write them write them alike. -/
theorem speedAndFrequencyAreNeverRead : Obligations.SpeedAndFrequencyAreNeverRead := by
  intro i s t r1 r2 f p h
  obtain ⟨u, u', st, info, ⟨r1', r2', f', p', rfl⟩, rfl, hexec⟩ :=
    unread_otherSettings.exec (i := i) (t := t) ⟨r1, r2, f, p, rfl⟩ h
  exact ⟨r1', r2', f', p', hexec⟩

end Sys2Proof.Machine
end

section
/-! The coil pattern of a phase and the construction of a configuration (spec/10_state.md R41, R42 to R47). -/

namespace Sys2Proof.Machine

/-- R180. -/
theorem patternIndex_toNat (p : Phase) : (patternIndex p).toNat = p.toNat / 4 := by
  simp only [patternIndex, BitVec.extractLsb'_toNat, Nat.shiftRight_eq_div_pow]
  omega

/-- Settles O49: the index by arithmetic, the table by its 32 phases. -/
theorem patternIsTheTableEntry : Obligations.PatternIsTheTableEntry := by
  have htable : ∀ p : Phase, (patternOf p).energized = (if (p.toNat / 4) % 2 = 0 then 1 else 2) := by decide
  intro p
  refine ⟨patternIndex_toNat p, rfl, htable p, ?_⟩
  revert p
  decide

end Sys2Proof.Machine

namespace Sys2Proof

/-! ### The construction -/

theorem channelOf_toNat {n : Nat} {c : Channel} (h : channelOf n = some c) : n ≤ 15 ∧ c.toNat = n := by
  unfold channelOf at h
  split at h
  next hn =>
    cases h
    exact ⟨hn, by rw [BitVec.toNat_ofNat]; omega⟩
  next => cases h

theorem stepsPerRevOf_toNat {n : Nat} {k : Word16} (h : stepsPerRevOf n = some k) :
    (1 ≤ n ∧ n ≤ 65535) ∧ k.toNat = n := by
  unfold stepsPerRevOf at h
  split at h
  next hn =>
    cases h
    exact ⟨hn, by rw [BitVec.toNat_ofNat]; omega⟩
  next => cases h

/-- A pin map is constructed from exactly the channels its six numbers name (R43, R44). -/
theorem construct_eq_some {a b c d e f : Nat} {m : PinMap} : PinMap.construct a b c d e f = some m ↔
    channelOf a = some m.pwma ∧ channelOf b = some m.ain2 ∧ channelOf c = some m.ain1 ∧
    channelOf d = some m.pwmb ∧ channelOf e = some m.bin2 ∧ channelOf f = some m.bin1 := by
  unfold PinMap.construct
  split
  next h0 h1 h2 h3 h4 h5 =>
    cases m
    simp [h0, h1, h2, h3, h4, h5]
  next hnone =>
    refine ⟨nofun, fun ⟨h0, h1, h2, h3, h4, h5⟩ => ?_⟩
    exact (hnone _ _ _ _ _ _ h0 h1 h2 h3 h4 h5).elim

theorem construct_isSome {a b c d e f : Nat} : (PinMap.construct a b c d e f).isSome = true ↔
    (a ≤ 15 ∧ b ≤ 15 ∧ c ≤ 15 ∧ d ≤ 15 ∧ e ≤ 15 ∧ f ≤ 15) := by
  rw [Option.isSome_iff_exists]
  constructor
  · rintro ⟨m, hm⟩
    obtain ⟨h0, h1, h2, h3, h4, h5⟩ := construct_eq_some.mp hm
    exact ⟨(channelOf_toNat h0).1, (channelOf_toNat h1).1, (channelOf_toNat h2).1, (channelOf_toNat h3).1,
      (channelOf_toNat h4).1, (channelOf_toNat h5).1⟩
  · rintro ⟨h0, h1, h2, h3, h4, h5⟩
    exact ⟨⟨_, _, _, _, _, _⟩,
      construct_eq_some.mpr ⟨if_pos h0, if_pos h1, if_pos h2, if_pos h3, if_pos h4, if_pos h5⟩⟩

theorem construct_toNat {a b c d e f : Nat} {m : PinMap} (hm : PinMap.construct a b c d e f = some m) :
    m.pwma.toNat = a ∧ m.ain2.toNat = b ∧ m.ain1.toNat = c ∧ m.pwmb.toNat = d ∧ m.bin2.toNat = e ∧
    m.bin1.toNat = f := by
  obtain ⟨h0, h1, h2, h3, h4, h5⟩ := construct_eq_some.mp hm
  exact ⟨(channelOf_toNat h0).2, (channelOf_toNat h1).2, (channelOf_toNat h2).2, (channelOf_toNat h3).2,
    (channelOf_toNat h4).2, (channelOf_toNat h5).2⟩

theorem stepsPerRevOf_isSome {n : Nat} : (stepsPerRevOf n).isSome = true ↔ (1 ≤ n ∧ n ≤ 65535) := by
  rw [Option.isSome_iff_exists]
  exact ⟨fun ⟨_, hk⟩ => (stepsPerRevOf_toNat hk).1, fun h => ⟨_, if_pos h⟩⟩

/-- Settles O57: the ranges and values by the construction's lemmas, the defaults by computation. -/
theorem illegalConfigurationIsRefused : Obligations.IllegalConfigurationIsRefused :=
  ⟨fun _ _ _ _ _ _ => construct_isSome, fun _ _ _ _ _ _ _ => construct_toNat, fun _ => stepsPerRevOf_isSome,
    fun _ _ h => (stepsPerRevOf_toNat h).2, rfl, rfl, rfl, rfl, rfl, rfl, rfl, rfl, rfl, rfl⟩

end Sys2Proof
end

section
/-! The device's registers (spec/20_memory.md R60, R62, R73): where they stand, which of them a command accesses, and
that every step keeps the image's form. -/

namespace Sys2Proof.Machine

/-! ### Offsets -/

theorem Part.index_lt (part : Part) : part.index < 4 := by cases part <;> decide

/-- The register of a block of four at this place, from 0 (R90). -/
def Part.ofIndex : Nat → Part
  | 0 => .onL
  | 1 => .onH
  | 2 => .offL
  | _ => .offH

theorem Part.ofIndex_index (part : Part) : Part.ofIndex part.index = part := by cases part <;> rfl

theorem led_offset_toNat (ch : Channel) (part : Part) :
    (DevReg.led ch part).offset.toNat = 0x06 + 4 * ch.toNat + part.index := by
  have hch := ch.isLt
  have hpart := part.index_lt
  simp only [DevReg.offset, chanBase, BitVec.toNat_ofNat]
  omega

theorem allLed_offset_toNat (part : Part) : (DevReg.allLed part).offset.toNat = 0xFA + part.index := by
  cases part <;> rfl

/-- The register that stands at an offset of R62's table. -/
def DevReg.ofOffset (n : Nat) : DevReg :=
  if n = 0x00 then .mode1
  else if n = 0x01 then .mode2
  else if n < 0xFA then .led (BitVec.ofNat 4 ((n - 0x06) / 4)) (.ofIndex ((n - 0x06) % 4))
  else if n = 0xFE then .prescale
  else .allLed (.ofIndex (n - 0xFA))

theorem DevReg.ofOffset_offset (r : DevReg) : DevReg.ofOffset r.offset.toNat = r := by
  cases r with
  | mode1 => rfl
  | mode2 => rfl
  | led ch part =>
    have hch := ch.isLt
    have hpart := part.index_lt
    have hdiv : (0x06 + 4 * ch.toNat + part.index - 0x06) / 4 = ch.toNat := by omega
    have hmod : (0x06 + 4 * ch.toNat + part.index - 0x06) % 4 = part.index := by omega
    rw [led_offset_toNat, DevReg.ofOffset, if_neg (by omega), if_neg (by omega), if_pos (by omega), hdiv, hmod,
      BitVec.ofNat_toNat, BitVec.setWidth_eq, Part.ofIndex_index]
  | allLed part =>
    have hpart := part.index_lt
    rw [allLed_offset_toNat, DevReg.ofOffset, if_neg (by omega), if_neg (by omega), if_neg (by omega),
      if_neg (by omega), Nat.add_sub_cancel_left, Part.ofIndex_index]
  | prescale => rfl

/-- Settles O44: the offset of a channel register by arithmetic; and an offset names its register, so it has one. -/
theorem channelRegistersAreDistinct : Obligations.ChannelRegistersAreDistinct :=
  ⟨led_offset_toNat, fun _ _ h => Function.LeftInverse.injective DevReg.ofOffset_offset (congrArg BitVec.toNat h)⟩

/-! ### The registers a command accesses -/

variable {i : Instr} {s t : State}

/-- A line a command may run leaves the image's byte at every offset the command may not write. -/
theorem perform_img_read {op : MicroOp} (hop : Allowed s i op) {reg : Byte} (hreg : reg ∉ writableOffsets s i)
    (s' : State) : (op.perform s').state.img.read reg.toNat = s'.img.read reg.toNat := by
  by_cases hw : ∃ r src, op = .write r src
  · obtain ⟨r, src, rfl⟩ := hw
    have hne : reg.toNat ≠ r.offset.toNat := fun he => hreg (BitVec.eq_of_toNat_eq he ▸ hop.1)
    obtain himg | himg := perform_write_img r src s' <;> rw [himg]
    exact Memory.read_write_other _ _ hne
  · rw [perform_img fun r src he => hw ⟨r, src, he⟩]

/-- Settles O35: no line of the command writes at another offset. -/
theorem otherDeviceRegistersUnchanged : Obligations.OtherDeviceRegistersUnchanged :=
  fun _ _ _ reg h hreg => exec_keeps (·.img.read reg.toNat) (fun _ _ _ => rfl) h fun _ hop =>
    perform_img_read hop hreg

/-- What every event has that a line of the command may add, every event has that the command adds. -/
theorem exec_events {P : Event → Prop} (h : exec i s = .next t)
    (hline : ∀ op, Allowed s i op → ∀ s', ∃ es, (op.perform s').state.trace = s'.trace ++ es ∧ ∀ e ∈ es, P e) :
    ∃ es, t.trace = s.trace ++ es ∧ ∀ e ∈ es, P e := by
  refine exec_relates (R := fun x y => ∃ es, y.trace = x.trace ++ es ∧ ∀ e ∈ es, P e)
    (fun _ => ⟨[], by simp⟩) ?_ (fun _ _ _ => ⟨[], by simp⟩) h hline
  rintro x y z ⟨es, hxy, hes⟩ ⟨es', hyz, hes'⟩
  exact ⟨es ++ es', by rw [hyz, hxy, List.append_assoc], List.forall_mem_append.mpr ⟨hes, hes'⟩⟩

/-- Settles O36: every line of the command adds such events only. -/
theorem commandsAccessOnlyTheirRegisters : Obligations.CommandsAccessOnlyTheirRegisters := by
  intro i s t es h htrace
  obtain ⟨es', htrace', hes'⟩ := exec_events h fun _ hop s' => perform_trace hop s'
  rwa [List.append_cancel_left (htrace.symm.trans htrace')]

/-! ### The image's form -/

/-- Every line, of whatever command, keeps the image canonical. -/
theorem perform_img_wf (op : MicroOp) (hs : s.img.wf = true) : (op.perform s).state.img.wf = true := by
  by_cases hw : ∃ reg src, op = .write reg src
  · obtain ⟨reg, src, rfl⟩ := hw
    obtain himg | himg := perform_write_img reg src s <;> rw [himg]
    · exact hs
    · exact Memory.wf_write reg.offset _ hs
  · rwa [perform_img fun reg src he => hw ⟨reg, src, he⟩]

/-- A command in progress, at whatever lines it stands, ends with a canonical image. -/
theorem finish_img_wf (hs : s.img.wf = true) : (finish s).img.wf = true := by
  cases hpos : s.position with
  | idle => rwa [finish_of_idle hpos]
  | running ops loop result =>
    obtain ⟨st, info, hclose, -⟩ := closeCommand_eq result ((runOps ops s).andThen (runLoop loop))
    have hops := fun ops' => runOps_induct (R := fun x y => x.img.wf = true → y.img.wf = true) (fun _ => id)
      (fun h1 h2 => h2 ∘ h1) ops' fun op _ _ => perform_img_wf op
    rw [finish_of_running hpos, hclose, respond_img]
    exact run_induct (R := fun x y => x.img.wf = true → y.img.wf = true) (fun _ => id) (fun h1 h2 => h2 ∘ h1)
      ops loop (fun op _ _ => perform_img_wf op) (fun _ _ s' => hops _ s') s hs

theorem step_of_running (hpos : s.position ≠ .idle) : step s = .next (finish s) := by
  cases h : s.position with
  | idle => exact absurd h hpos
  | running ops loop result => simp [step, h]

/-- Settles O42: a command in progress, a command taken, an illegal word and a wait each keep the form. -/
theorem stepKeepsTheImageCanonical : Obligations.StepKeepsTheImageCanonical := by
  intro s t hs h
  by_cases hpos : s.position = .idle
  · cases hc : s.commands with
    | nil =>
      rw [step_waits hpos hc] at h
      cases h
      exact hs
    | cons w rest =>
      cases hw : decode w with
      | illegal why =>
        rw [step_of_illegal hpos hc hw] at h
        cases h
        exact hs
      | instr i =>
        rw [step_of_instr hpos hc hw] at h
        exact exec_img_wf h hs
  · rw [step_of_running hpos] at h
    cases h
    exact finish_img_wf hs

end Sys2Proof.Machine
end

section
/-! Failed transactions (spec/20_memory.md R65, spec/60_exceptions.md R232, R234). -/

namespace Sys2Proof.Machine

/-- No response is given before the end of a command. -/
theorem run_responses (ops : List MicroOp) (loop : Option StepLoop) (s : State) :
    ((runOps ops s).andThen (runLoop loop)).state.responses = s.responses := by
  have hline (op : MicroOp) (s' : State) : (op.perform s').state.responses = s'.responses :=
    (perform_keeps op s').2.2.2.1
  have hops (ops' : List MicroOp) : ∀ s', (runOps ops' s').state.responses = s'.responses :=
    runOps_induct (R := fun x y => y.responses = x.responses) (fun _ => rfl) (fun h1 h2 => h2.trans h1) ops'
      fun op _ => hline op
  exact run_induct (R := fun x y => y.responses = x.responses) (fun _ => rfl) (fun h1 h2 => h2.trans h1) ops loop
    (fun op _ => hline op) (fun _ _ _ => hops _ _) s

theorem code_eq_busError_iff (st : Status) : st.code = 0x01 ↔ st = .busError := by cases st <;> decide

/-- Settles O19: failed checks add no event; and the run of a command adds a failed event only where it ends failed, as
the last. -/
theorem failedEventEndsTheCommand : Obligations.FailedEventEndsTheCommand := by
  intro i s t h
  obtain ⟨-, ⟨e, info, -, he, rfl⟩ | ⟨ops, loop, result, -, rfl⟩⟩ := exec_cases h
  · refine ⟨[], responseWord e info, by simp, respond_responses s e info, by simp, ?_⟩
    rw [statusField_responseWord, code_eq_busError_iff]
    simp [he]
  have htraced := run_traced ops loop s
  have hresp := run_responses ops loop s
  cases hr : (runOps ops s).andThen (runLoop loop) with
  | done u =>
    rw [hr] at htraced hresp
    obtain ⟨es, htrace, hes⟩ := htraced
    refine ⟨es, responseWord .ok result, htrace, congrArg (· ++ _) hresp,
      fun e he => hes e (List.mem_of_mem_dropLast he), ?_⟩
    rw [statusField_responseWord, code_eq_busError_iff]
    refine iff_of_false (by decide) ?_
    rintro ⟨e, hlast, hfailed⟩
    exact absurd hfailed (by simp [hes e (List.mem_of_getLast? hlast)])
  | failed u reg =>
    rw [hr] at htraced hresp
    obtain ⟨es, e, htrace, hes, hfailed, -⟩ := htraced
    refine ⟨es ++ [e], responseWord .busError reg, htrace, congrArg (· ++ _) hresp, by simpa using hes, ?_⟩
    rw [statusField_responseWord, code_eq_busError_iff]
    exact iff_of_true rfl ⟨e, List.getLast?_concat, hfailed⟩

end Sys2Proof.Machine
end

section
/-! The packer's event sequences (spec/20_memory.md R65, spec/40_pwm_packer.md R135, R136, R140, R141): lines that go
through a sequence of events to its end, or to the transaction the bus fails; how such lines follow one another; and
INIT and SET_FREQ put together from theirs. -/

namespace Sys2Proof.Machine

/-! ### Sequences of events -/

theorem transactions_append (xs ys : List Event) : transactions (xs ++ ys) = transactions xs ++ transactions ys :=
  List.filter_append xs ys

theorem writesOf_append (xs ys : List Event) : writesOf (xs ++ ys) = writesOf xs ++ writesOf ys := by
  induction xs with
  | nil => rfl
  | cons e xs ih => cases e <;> simp [writesOf, ih]

/-- Before a transaction of the first of two sequences only events of that one come. -/
theorem eventsBefore_append_left {k : Nat} {xs : List Event} (h : k < (transactions xs).length) (ys : List Event) :
    eventsBefore k (xs ++ ys) = eventsBefore k xs := by
  induction xs generalizing k with
  | nil => simp [transactions] at h
  | cons e xs ih =>
    cases e <;> cases k <;>
      simp_all [eventsBefore, transactions, Event.isTransaction, List.filter_cons]

/-- Before a transaction of the second of two sequences all events of the first come. -/
theorem eventsBefore_append_right (xs ys : List Event) (j : Nat) :
    eventsBefore ((transactions xs).length + j) (xs ++ ys) = xs ++ eventsBefore j ys := by
  induction xs with
  | nil => simp [transactions]
  | cons e xs ih =>
    cases e <;>
      simp_all [eventsBefore, transactions, Event.isTransaction, List.filter_cons, Nat.add_right_comm]

theorem saw_nil (s : State) : s.saw [] = s := by
  simp [State.saw, transactions, writesOf, Memory.writes, advanceBy_zero]

theorem saw_saw (s : State) (xs ys : List Event) : (s.saw xs).saw ys = s.saw (xs ++ ys) := by
  simp [State.saw, advanceBy_advanceBy, transactions_append, writesOf_append, Memory.writes_append]

/-! ### Lines that go through a sequence of events -/

/-- The registers of the block that INIT and SET_FREQ write, with the held MODE1 byte. -/
structure Settings where
  initialized : Bool
  freqHz : Word16
  prescale : Byte
  held : Byte

/-- The settings of a state. -/
def State.settings (s : State) : Settings := ⟨s.initialized, s.freqHz, s.prescale, s.held⟩

/-- The state with other settings. -/
def State.withSettings (s : State) (g : Settings) : State :=
  { s with initialized := g.initialized, freqHz := g.freqHz, prescale := g.prescale, held := g.held }

/-- A result of the lines that cause these events, from state `s`: where all transactions succeed it is done, with all
events; where transaction number `k` fails it ends there, with the events before it and its failed event. After `k`
transactions the settings are `g k`. -/
def OpResult.Follows (r : OpResult) (s : State) (es : List Event) (g : Nat → Settings) : Prop :=
  (s.bus.okFor (transactions es).length = true →
    r = .done ((s.saw es).withSettings (g (transactions es).length))) ∧
  ∀ k e, (transactions es)[k]? = some e → s.bus.failsAfter k = true →
    r = .failed (((s.saw (eventsBefore k es)).record e.failed).withSettings (g k)) e.offset

/-- The state from which the lines after such lines start, if no transaction has failed. -/
def State.after (s : State) (es : List Event) (g : Nat → Settings) : State :=
  (s.saw es).withSettings (g (transactions es).length)

/-- The settings after `k` transactions of two runs of lines in a row, of which the first makes `n`. -/
def inTurn (n : Nat) (g g' : Nat → Settings) (k : Nat) : Settings := if k < n then g k else g' (k - n)

theorem inTurn_of_lt {n k : Nat} (h : k < n) (g g' : Nat → Settings) : inTurn n g g' k = g k := if_pos h

theorem inTurn_add (n j : Nat) (g g' : Nat → Settings) : inTurn n g g' (n + j) = g' j := by
  simp [inTurn]

/-- Two runs of lines in a row go through their events in a row. -/
theorem OpResult.Follows.andThen {r : OpResult} {f : State → OpResult} {s : State} {xs ys : List Event}
    {g g' : Nat → Settings} (hr : r.Follows s xs g) (hf : (f (s.after xs g)).Follows (s.after xs g) ys g') :
    (r.andThen f).Follows s (xs ++ ys) (inTurn (transactions xs).length g g') := by
  obtain ⟨hdone, hfailed⟩ := hr
  obtain ⟨hdone', hfailed'⟩ := hf
  constructor
  · intro hok
    rw [transactions_append, List.length_append, okFor_add, Bool.and_eq_true] at hok
    rw [hdone hok.1, andThen_done, ← State.after, hdone' hok.2, transactions_append, List.length_append,
      inTurn_add, ← saw_saw]
    rfl
  · intro k e he hfail
    rw [transactions_append] at he
    by_cases hk : k < (transactions xs).length
    · rw [List.getElem?_append_left hk] at he
      rw [hfailed k e he hfail, andThen_failed, eventsBefore_append_left hk, inTurn_of_lt hk]
    · obtain ⟨j, rfl⟩ := Nat.exists_eq_add_of_le (Nat.le_of_not_lt hk)
      rw [List.getElem?_append_right (Nat.le_add_right _ _), Nat.add_sub_cancel_left] at he
      rw [failsAfter_add, Bool.and_eq_true] at hfail
      rw [hdone hfail.1, andThen_done, ← State.after, hfailed' j e he hfail.2, eventsBefore_append_right, inTurn_add,
        ← saw_saw]
      rfl

/-- The events of writes that all succeed. -/
def writeEvents (ws : List (Byte × Byte)) : List Event := ws.map fun w => .write w.1 w.2

theorem transactions_writeEvents (ws : List (Byte × Byte)) : transactions (writeEvents ws) = writeEvents ws := by
  simp [transactions, writeEvents, List.filter_map, Function.comp_def, Event.isTransaction]

theorem writesOf_writeEvents (ws : List (Byte × Byte)) : writesOf (writeEvents ws) = ws := by
  induction ws with
  | nil => rfl
  | cons w ws ih => exact congrArg (w :: ·) ih

theorem eventsBefore_writeEvents (k : Nat) (ws : List (Byte × Byte)) :
    eventsBefore k (writeEvents ws) = writeEvents (ws.take k) := by
  induction ws generalizing k with
  | nil => cases k <;> rfl
  | cons w ws ih => cases k with
    | zero => rfl
    | succ k => exact congrArg (Event.write w.1 w.2 :: ·) (ih k)

theorem wrote_eq_saw (s : State) (ws : List (Byte × Byte)) : s.wrote ws = s.saw (writeEvents ws) := by
  rw [State.wrote, State.saw, transactions_writeEvents, writesOf_writeEvents]
  simp [writeEvents]

/-- Writes alone leave the settings. -/
theorem follows_writeLines (ws : List (DevReg × Byte)) (s : State) :
    (runOps (writeLines ws) s).Follows s (writeEvents (offsetsOf ws)) fun _ => s.settings := by
  constructor
  · intro hok
    rw [transactions_writeEvents] at hok
    rw [runOps_writeLines_ok ws s (by simpa [writeEvents, offsetsOf] using hok), wrote_eq_saw]
    rfl
  · intro k e he hfail
    rw [transactions_writeEvents, writeEvents, List.getElem?_map, Option.map_eq_some_iff] at he
    obtain ⟨w, hw, rfl⟩ := he
    rw [runOps_writeLines_failsAfter ws s k w hw hfail, wrote_eq_saw, eventsBefore_writeEvents]
    rfl

/-- The MODE1 update of InitSeq sets the held byte with its read (R135). -/
theorem follows_wake (s : State) (p : Params) :
    ∃ m : Byte, (∀ b, s.bus.gives b → m = b) ∧
      (runOps [.wait settleMs, .readMode1, .write .mode1 (.held p.mode1Sleep 0), .wait settleMs] s).Follows s
        (wakeEvents p m) fun k => { s.settings with held := if 0 < k then m else s.held } := by
  obtain ⟨m, hm, hdone, hfailed⟩ := wake_run s p
  exact ⟨m, hm, hdone, hfailed⟩

/-- FreqSeq sets the held byte with its read, and the frequency and the prescale with the PRESCALE write (R136). -/
theorem follows_freqSeq (s : State) (p : Params) (hz : Word16) (pre : Byte) :
    ∃ old : Byte, (∀ b, s.bus.gives b → old = b) ∧
      (runOps (freqSeq p hz pre) s).Follows s (freqEvents p pre old) fun k => { s.settings with
        freqHz := if 2 < k then hz else s.freqHz
        prescale := if 2 < k then pre else s.prescale
        held := if 0 < k then old else s.held } := by
  obtain ⟨old, hold, hdone, hfailed⟩ := freqSeq_run s p hz pre
  exact ⟨old, hold, hdone, hfailed⟩

/-- The end of INIT makes no transaction (R140). -/
theorem follows_setInitialized (v : Bool) (s : State) :
    (runOps [.setInitialized v] s).Follows s [] fun _ => { s.settings with initialized := v } := by
  refine ⟨fun _ => ?_, fun k e he => by simp [transactions] at he⟩
  rw [saw_nil]
  rfl

/-! ### Commands that go through a sequence of events -/

theorem respond_of_idle {s : State} (h : s.position = .idle) (st : Status) (info : Byte) :
    respond st info s = s.answered (st.code ++ info) := by
  cases s; cases h; rfl

/-- A command whose lines go through these events answers OK at their end, and BusError at the transaction the bus
fails (R234). -/
theorem exec_of_follows {i : Instr} {s : State} {ops : List MicroOp} {es : List Event} {g : Nat → Settings}
    (hidle : s.position = .idle) (hv : verdictOf i s = .run ops none 0) (hf : (runOps ops s).Follows s es g) :
    (s.bus.okFor (transactions es).length = true →
      exec i s = .next (((s.saw es).answered 0x0000).withSettings (g (transactions es).length))) ∧
    ∀ k e, (transactions es)[k]? = some e → s.bus.failsAfter k = true →
      exec i s = .next (((s.saw (eventsBefore k es)).endedAt e).withSettings (g k)) := by
  rw [exec_of_idle hidle, hv, carryOut_run_none]
  constructor
  · intro hok
    rw [hf.1 hok, closeCommand, respond_of_idle (by exact hidle)]
    rfl
  · intro k e he hfail
    rw [hf.2 k e he hfail, closeCommand, raise_eq, respond_of_idle (by exact hidle)]
    rfl

/-- Settles O22: SET_FREQ's lines are FreqSeq. -/
theorem setFreqRunsItsSequence : Obligations.SetFreqRunsItsSequence := by
  rintro s hz p ⟨hidle, hinit⟩ hp
  obtain ⟨old, hold, hf⟩ := follows_freqSeq s s.params hz p
  obtain ⟨hdone, hfailed⟩ := exec_of_follows (i := .setFreq hz) hidle
    ((needInit_of_initialized hinit _).trans (needPrescale_of_some hp _)) hf
  exact ⟨old, hold, hdone, hfailed⟩

/-- The writes with which INIT begins: ALL_LED, MODE2 and MODE1 (R135). -/
def initWrites (p : Params) : List (DevReg × Byte) := [
  (.allLed .onL, 0), (.allLed .onH, 0), (.allLed .offL, 0), (.allLed .offH, 0),
  (.mode2, p.mode2Outdrv), (.mode1, p.mode1Allcall)]

/-- The lines of INIT (R140). -/
def initLines (p : Params) (hz : Word16) (pre : Byte) : List MicroOp :=
  .setInitialized false :: initSeq p ++ freqSeq p hz pre ++ [.setInitialized true]

theorem verdictOf_init {hz : Word16} {pre : Byte} (h : prescaleOf hz = some pre) (s : State) :
    verdictOf (.init hz) s = .run (initLines s.params hz pre) none 0 := needPrescale_of_some h _

/-- INIT's lines in the parts above (R135, R140). -/
theorem initLines_eq (p : Params) (hz : Word16) (pre : Byte) :
    initLines p hz pre =
      [.setInitialized false] ++ writeLines (initWrites p) ++
      [.wait settleMs, .readMode1, .write .mode1 (.held p.mode1Sleep 0), .wait settleMs] ++
      freqSeq p hz pre ++ [.setInitialized true] := rfl

theorem initEvents_eq (p : Params) (pre m old : Byte) :
    initEvents p pre m old =
      [] ++ writeEvents (offsetsOf (initWrites p)) ++ wakeEvents p m ++ freqEvents p pre old ++ [] := rfl

theorem transactions_initEvents_length (p : Params) (pre m old : Byte) :
    (transactions (initEvents p pre m old)).length = 13 := rfl

/-- The settings after `k` of INIT's thirteen transactions. -/
def initSettings (s : State) (hz : Word16) (pre m old : Byte) (k : Nat) : Settings where
  initialized := decide (12 < k)
  freqHz := if 10 < k then hz else s.freqHz
  prescale := if 10 < k then pre else s.prescale
  held := if 8 < k then old else if 6 < k then m else s.held

/-- INIT's lines go through its sequence of events (R140). -/
theorem follows_init (s : State) (hz : Word16) (pre : Byte) :
    ∃ m old : Byte, (∀ b, (s.bus.advanceBy 6).gives b → m = b) ∧ (∀ b, (s.bus.advanceBy 8).gives b → old = b) ∧
      ∃ g, (runOps (initLines s.params hz pre) s).Follows s (initEvents s.params pre m old) g ∧
        ∀ k ≤ 13, g k = initSettings s hz pre m old k := by
  have hwrites := (follows_setInitialized false s).andThen (follows_writeLines (initWrites s.params) _)
  obtain ⟨m, hm, hwake⟩ := follows_wake (s.after _ _) s.params
  have hinitSeq := hwrites.andThen hwake
  obtain ⟨old, hold, hfreq⟩ := follows_freqSeq (s.after _ _) s.params hz pre
  have hinit := (hinitSeq.andThen hfreq).andThen (follows_setInitialized true _)
  rw [← runOps_append, ← runOps_append, ← runOps_append, ← runOps_append, ← initLines_eq, ← initEvents_eq] at hinit
  refine ⟨m, old, hm, hold, _, hinit, fun k hk => ?_⟩
  interval_cases k <;> rfl

/-- Settles O20: the writes, the MODE1 update and FreqSeq follow one another. -/
theorem initRunsItsSequence : Obligations.InitRunsItsSequence := by
  intro s hz p hidle hp
  obtain ⟨m, old, hm, hold, g, hf, hg⟩ := follows_init s hz p
  obtain ⟨hdone, hfailed⟩ := exec_of_follows hidle (verdictOf_init hp s) hf
  rw [transactions_initEvents_length, hg 13 le_rfl] at hdone
  refine ⟨m, old, hm, hold, hdone, fun k e he hfail => ?_⟩
  have hk : k < 13 := transactions_initEvents_length _ _ _ _ ▸ (List.getElem?_eq_some_iff.mp he).1
  rw [hfailed k e he hfail, hg k hk.le, initSettings, decide_eq_false (by omega)]
  rfl

end Sys2Proof.Machine
end

section
/-! The reference device (spec/20_memory.md R79): it answers every transaction, so the lines of a command run to their
end, and only the image and the held byte decide what they write. -/

namespace Sys2Proof.Machine

/-- Every coming transaction is answered by the reference device (R79). -/
def Bus.OnReference (b : Bus) : Prop := b.script = [] ∧ b.rest = .reference

theorem Bus.OnReference.advance {b : Bus} (h : b.OnReference) : b.advance.OnReference :=
  ⟨by simp [Bus.advance, h.1], h.2⟩

theorem Bus.OnReference.choice {b : Bus} (h : b.OnReference) : b.choice = .reference := by
  simp [Bus.choice, h.1, h.2]

theorem Bus.OnReference.busAnswer {s : State} (h : s.bus.OnReference) (reg : Byte) :
    s.busAnswer reg = .ok ((s.img.read reg.toNat).getD (Config.deviceByte reg.toNat)) := by
  simp [State.busAnswer, h.choice]

/-- What a line does to the image and the held byte on the reference device. -/
def MicroOp.onReference (x : Memory × Byte) : MicroOp → Memory × Byte
  | .write reg src => (x.1.write reg.offset.toNat (src.eval x.2), x.2)
  | .readMode1 => (x.1, (x.1.read 0).getD (Config.deviceByte 0))
  | _ => x

theorem perform_onReference (op : MicroOp) {s : State} (h : s.bus.OnReference) :
    ∃ u, op.perform s = .done u ∧ u.bus.OnReference ∧ (u.img, u.held) = op.onReference (s.img, s.held) := by
  cases op with
  | write reg src => exact ⟨_, by rw [MicroOp.perform, busWrite, h.busAnswer], h.advance, rfl⟩
  | readMode1 => exact ⟨_, by rw [MicroOp.perform, busReadMode1, h.busAnswer], h.advance, rfl⟩
  | wait ms => exact ⟨_, rfl, h, rfl⟩
  | setInitialized v => exact ⟨_, rfl, h, rfl⟩
  | setFreq hz p => exact ⟨_, rfl, h, rfl⟩
  | setRpm a v => exact ⟨_, rfl, by rwa [setRpm_bus], by rw [setRpm_img, setRpm_held]; rfl⟩
  | setPhase a v => exact ⟨_, rfl, by rwa [setPhase_bus], by rw [setPhase_img, setPhase_held]; rfl⟩

/-- On the reference device every list of lines runs to its end. -/
theorem runOps_onReference (ops : List MicroOp) {s : State} (h : s.bus.OnReference) :
    ∃ u, runOps ops s = .done u ∧ (u.img, u.held) = ops.foldl MicroOp.onReference (s.img, s.held) := by
  induction ops generalizing s with
  | nil => exact ⟨s, rfl, rfl⟩
  | cons op ops ih =>
    obtain ⟨u, hu, hbus, himg⟩ := perform_onReference op h
    obtain ⟨v, hv, hv'⟩ := ih hbus
    exact ⟨v, by rw [runOps_cons_done ops hu, hv], by rw [hv', himg, List.foldl_cons]⟩

/-- What INIT leaves in the image on the reference device, whatever was there: each of its two reads comes after a write
of MODE1 (R135, R136). -/
theorem initLines_onReference (p : Params) (hz : Word16) (pre : Byte) (x : Memory × Byte) :
    let m := ((initLines p hz pre).foldl MicroOp.onReference x).1
    m.read 0x00 = some ((p.mode1Allcall &&& ~~~p.mode1Sleep) ||| p.mode1Restart) ∧
    m.read 0x01 = some p.mode2Outdrv ∧ m.read 0xFE = some pre ∧
    m.read 0xFA = some 0 ∧ m.read 0xFB = some 0 ∧ m.read 0xFC = some 0 ∧ m.read 0xFD = some 0 := by
  simp [initLines, initSeq, freqSeq, writeAll, writeByte, dutyLow, dutyHigh, MicroOp.onReference, Memory.read_write,
    DevReg.offset, Part.index, ByteSource.eval, and_allOnes_byte]

/-- Settles O21: INIT's lines run to their end, and the image after them is computed. -/
theorem initOnTheReferenceDevice : Obligations.InitOnTheReferenceDevice := by
  rintro s hz p old n hidle hp hbus rfl
  have href : s.bus.OnReference := by rw [hbus]; exact ⟨rfl, rfl⟩
  obtain ⟨u, hrun, himg⟩ := runOps_onReference (initLines s.params hz p) href
  have hresp := run_responses (initLines s.params hz p) none s
  rw [hrun] at hresp
  refine ⟨respond .ok 0 u, ?_, congrArg (· ++ _) hresp, ?_⟩
  · rw [exec_of_idle hidle, verdictOf_init hp, carryOut_run_none, hrun, closeCommand]
  · rw [respond_img, show u.img = _ from congrArg Prod.fst himg]
    exact initLines_onReference s.params hz p _

end Sys2Proof.Machine
end

section
/-! The fields of a word. A concatenation is a word exactly where each of its parts is the word's field at its place, so
what `encode` and `decode` say of a word is compared field by field. -/

namespace Sys2Proof

variable {n a b c d e : Nat} {x : BitVec a} {y : BitVec b} {z : BitVec c} {u : BitVec d} {v : BitVec e} {w : BitVec n}

theorem append_eq_field {s : Nat} :
    x ++ y = w.extractLsb' s (a + b) ↔ x = w.extractLsb' (s + b) a ∧ y = w.extractLsb' s b := by
  rw [← BitVec.extractLsb'_append_extractLsb'_eq_extractLsb' rfl]
  constructor
  · intro h
    have hl := congrArg (BitVec.extractLsb' b a) h
    have hr := congrArg (BitVec.extractLsb' 0 b) h
    simp only [BitVec.extractLsb'_append_eq_left, BitVec.extractLsb'_append_eq_right] at hl hr
    exact ⟨hl, hr⟩
  · rintro ⟨rfl, rfl⟩
    rfl

theorem append₃_eq_field {s : Nat} : x ++ y ++ z = w.extractLsb' s (a + b + c) ↔
    x = w.extractLsb' (s + c + b) a ∧ y = w.extractLsb' (s + c) b ∧ z = w.extractLsb' s c := by
  simp only [append_eq_field, and_assoc]

theorem append₄_eq_field {s : Nat} : x ++ y ++ z ++ u = w.extractLsb' s (a + b + c + d) ↔
    x = w.extractLsb' (s + d + c + b) a ∧ y = w.extractLsb' (s + d + c) b ∧ z = w.extractLsb' (s + d) c ∧
      u = w.extractLsb' s d := by
  simp only [append_eq_field, and_assoc]

theorem append₅_eq_field {s : Nat} : x ++ y ++ z ++ u ++ v = w.extractLsb' s (a + b + c + d + e) ↔
    x = w.extractLsb' (s + e + d + c + b) a ∧ y = w.extractLsb' (s + e + d + c) b ∧ z = w.extractLsb' (s + e + d) c ∧
      u = w.extractLsb' (s + e) d ∧ v = w.extractLsb' s e := by
  simp only [append_eq_field, and_assoc]

end Sys2Proof
end

section
/-! Decoding and encoding. Both say the same of a word and a command: the word has the command's opcode and carries its
operands; decoding asks for the operand ranges besides. -/

namespace Sys2Proof

open Machine

/-- The bits of `w` below the opcode are the command's operands and zeros in the reserved fields of its format, the
highest field first (R101, R102). -/
def Instr.CarriedBy (w : CommandWord) : Instr → Prop
  | .init hz => 0 = w.extractLsb' 16 40 ∧ hz = low16Field w
  | .setFreq hz => 0 = w.extractLsb' 16 40 ∧ hz = low16Field w
  | .setChannel ch on off => 0 = w.extractLsb' 40 16 ∧ ch = styleField w ∧ on = onField w ∧ off = low16Field w
  | .setAll on off => 0 = w.extractLsb' 32 24 ∧ on = onField w ∧ off = low16Field w
  | .setPin pin val => 0 = w.extractLsb' 16 40 ∧ pin = w.extractLsb' 8 8 ∧ val = w.extractLsb' 0 8
  | .getStepper axis => axis = axisField w ∧ 0 = w.extractLsb' 0 48
  | .setSpeed axis rpm => axis = axisField w ∧ 0 = w.extractLsb' 16 32 ∧ rpm = low16Field w
  | .oneStep axis dir style =>
    axis = axisField w ∧ dir.code = dirField w ∧ style.code = styleField w ∧ 0 = w.extractLsb' 0 32
  | .step axis dir style count =>
    axis = axisField w ∧ dir.code = dirField w ∧ style.code = styleField w ∧ count = w.extractLsb' 0 32

theorem encode_eq_iff {w : CommandWord} {i : Instr} : encode i = w ↔ i.opcode = opcodeOf w ∧ i.CarriedBy w := by
  have hw : encode i = w ↔ encode i = w.extractLsb' 0 64 := by rw [BitVec.extractLsb'_eq_self]
  rw [hw]
  cases i with
  | init _ | setFreq _ | getStepper _ => exact append₃_eq_field
  | setAll _ _ | setPin _ _ | setSpeed _ _ => exact append₄_eq_field
  | setChannel _ _ _ | oneStep _ _ _ | step _ _ _ _ => exact append₅_eq_field

theorem withDirStyle_of_codes {w : CommandWord} {d : Direction} {st : Style} (hd : d.code = dirField w)
    (hs : st.code = styleField w) (k : Direction → Style → Instr) : withDirStyle w k = .instr (k d st) := by
  rw [withDirStyle, ← hd, ← hs, Direction.ofCode_code, Style.ofCode_code]

theorem carriedBy_of_decode {w : CommandWord} {i : Instr} (h : decode w = .instr i) :
    i.wellFormed = true ∧ i.opcode = opcodeOf w ∧ i.CarriedBy w := by
  have hcode {k : Byte} (hk : (opcodeOf w).toNat = k.toNat) : k = opcodeOf w := (BitVec.eq_of_toNat_eq hk).symm
  unfold decode at h
  split at h
  case h_1 hop | h_2 hop | h_5 hop =>
    obtain ⟨hres, h⟩ := unlessReserved_eq_instr h
    cases h
    exact ⟨rfl, hcode hop, hres.symm, by simp⟩
  case h_3 hop =>
    obtain ⟨hres, h⟩ := unlessReserved_eq_instr h
    obtain ⟨rfl, hwf⟩ := decodeSetChannel_eq_instr h
    exact ⟨hwf, hcode hop, hres.symm, rfl, rfl, rfl⟩
  case h_4 hop =>
    obtain ⟨hres, h⟩ := unlessReserved_eq_instr h
    obtain ⟨rfl, hwf⟩ := decodeSetAll_eq_instr h
    exact ⟨hwf, hcode hop, hres.symm, rfl, rfl⟩
  case h_6 hop =>
    obtain ⟨hres, h⟩ := unlessReserved_eq_instr h
    cases h
    exact ⟨rfl, hcode hop, rfl, hres.symm⟩
  case h_7 hop =>
    obtain ⟨hres, h⟩ := unlessReserved_eq_instr h
    cases h
    exact ⟨rfl, hcode hop, rfl, hres.symm, rfl⟩
  case h_8 hop =>
    obtain ⟨hres, h⟩ := unlessReserved_eq_instr h
    obtain ⟨d, st, rfl, hd, hs⟩ := withDirStyle_eq_instr h
    exact ⟨rfl, hcode hop, rfl, hd, hs, hres.symm⟩
  case h_9 hop =>
    obtain ⟨d, st, rfl, hd, hs⟩ := withDirStyle_eq_instr h
    exact ⟨rfl, hcode hop, rfl, hd, hs, rfl⟩
  case h_10 => cases h

theorem decode_of_carriedBy {w : CommandWord} {i : Instr} (hwf : i.wellFormed = true) (hop : i.opcode = opcodeOf w)
    (hc : i.CarriedBy w) : decode w = .instr i := by
  unfold decode
  rw [← hop]
  cases i with
  | init _ | setFreq _ =>
    obtain ⟨hres, rfl⟩ := hc
    exact if_pos hres.symm
  | setChannel _ _ _ =>
    obtain ⟨hres, rfl, rfl, rfl⟩ := hc
    simp only [Instr.wellFormed, Bool.and_eq_true] at hwf
    refine (if_pos hres.symm).trans ?_
    simp [decodeSetChannel, hwf]
  | setAll _ _ =>
    obtain ⟨hres, rfl, rfl⟩ := hc
    exact (if_pos hres.symm).trans (if_pos hwf)
  | setPin _ _ =>
    obtain ⟨hres, rfl, rfl⟩ := hc
    exact if_pos hres.symm
  | getStepper _ =>
    obtain ⟨rfl, hres⟩ := hc
    exact if_pos hres.symm
  | setSpeed _ _ =>
    obtain ⟨rfl, hres, rfl⟩ := hc
    exact if_pos hres.symm
  | oneStep _ _ _ =>
    obtain ⟨rfl, hd, hs, hres⟩ := hc
    exact (if_pos hres.symm).trans (withDirStyle_of_codes hd hs _)
  | step _ _ _ _ =>
    obtain ⟨rfl, hd, hs, rfl⟩ := hc
    exact withDirStyle_of_codes hd hs _

theorem decode_eq_instr_iff {w : CommandWord} {i : Instr} :
    decode w = .instr i ↔ encode i = w ∧ i.wellFormed = true := by
  rw [encode_eq_iff]
  constructor
  · intro h
    obtain ⟨hwf, hop, hc⟩ := carriedBy_of_decode h
    exact ⟨⟨hop, hc⟩, hwf⟩
  · rintro ⟨⟨hop, hc⟩, hwf⟩
    exact decode_of_carriedBy hwf hop hc

/-- Settles O1, by the fields of the word. -/
theorem decodeOfEncodeIsTheCommand : Obligations.DecodeOfEncodeIsTheCommand :=
  fun _ hwf => decode_eq_instr_iff.2 ⟨rfl, hwf⟩

/-- Settles O2, by the fields of the word. -/
theorem encodeOfDecodeIsTheWord : Obligations.EncodeOfDecodeIsTheWord := fun _ _ => decode_eq_instr_iff.1

theorem Decoded.isIllegal_instr (i : Instr) : (Decoded.instr i).isIllegal = false := rfl

theorem Decoded.isIllegal_illegal (why : DecodeError) : (Decoded.illegal why).isIllegal = true := rfl

/-- The decoder refuses exactly the words illegal by rule (R112). -/
theorem decode_isIllegal (w : CommandWord) : (decode w).isIllegal = illegalByRule w := by
  have hopcode : w.extractLsb' 56 8 = opcodeOf w := rfl
  have hchannel : (decodeSetChannel w).isIllegal = (decide (15 < (w.extractLsb' 32 8).toNat) || badDutyField w) :=
    decodeSetChannel_isIllegal w
  unfold decode
  split
  all_goals
    simp only [illegalByRule, unlessReserved_isIllegal, decodeSetAll_isIllegal, withDirStyle_isIllegal,
      Decoded.isIllegal_instr, Decoded.isIllegal_illegal, Bool.or_false, Bool.or_assoc, *]

/-! ### The rows of the opcode table -/

theorem covers_iff {r : OpcodeRow} {w : CommandWord} : r.covers w = true ↔ w &&& r.mask = r.pattern := beq_iff_eq

theorem opcodeOf_and (w m : CommandWord) : opcodeOf (w &&& m) = opcodeOf w &&& opcodeOf m := BitVec.extractLsb'_and

theorem opcodeOf_eq_of_covers {r : OpcodeRow} (hr : r ∈ opcodeTable) {w : CommandWord} (h : r.covers w = true) :
    opcodeOf w = opcodeOf r.pattern := by
  have hmask : ∀ r ∈ opcodeTable, opcodeOf r.mask = BitVec.allOnes 8 := by decide
  rw [← covers_iff.1 h, opcodeOf_and, hmask r hr, BitVec.and_allOnes]

/-- Settles O3: decoding refuses exactly the words illegal by rule, a command it answers is the word's by
`decode_eq_instr_iff`, and the rows' opcodes are distinct. -/
theorem everyWordDecodesOnceOrIsIllegal : Obligations.EveryWordDecodesOnceOrIsIllegal := by
  refine ⟨fun w => ?_, fun r hr r' hr' w h h' => ?_⟩
  · rw [← decode_isIllegal]
    cases hd : decode w with
    | illegal why => exact .inl ⟨rfl, why, rfl⟩
    | instr i =>
      obtain ⟨-, hop, -⟩ := carriedBy_of_decode hd
      exact .inr ⟨rfl, i, rfl, hop, (decode_eq_instr_iff.1 hd).1, fun j hj => (Decoded.instr.inj hj).symm⟩
  · have hdistinct : ∀ r ∈ opcodeTable, ∀ r' ∈ opcodeTable, opcodeOf r.pattern = opcodeOf r'.pattern → r = r' := by
      decide
    exact hdistinct r hr r' hr' ((opcodeOf_eq_of_covers hr h).symm.trans (opcodeOf_eq_of_covers hr' h'))

/-- Each row's mask, read in the fields of its command's format, keeps the opcode and the reserved fields and no
operand. -/
theorem exists_row_covers_encode (i : Instr) :
    ∃ r ∈ opcodeTable, r.mnemonic = i.mnemonic ∧ r.covers (encode i) = true := by
  cases i
  case' init hz =>
    refine ⟨opcodeTable[0], List.getElem_mem _, rfl, covers_iff.2 ?_⟩
    change (0x01#8 ++ 0#40 ++ hz) &&& (0xFF#8 ++ BitVec.allOnes 40 ++ 0#16) = _
  case' setFreq hz =>
    refine ⟨opcodeTable[1], List.getElem_mem _, rfl, covers_iff.2 ?_⟩
    change (0x02#8 ++ 0#40 ++ hz) &&& (0xFF#8 ++ BitVec.allOnes 40 ++ 0#16) = _
  case' setChannel ch on off =>
    refine ⟨opcodeTable[2], List.getElem_mem _, rfl, covers_iff.2 ?_⟩
    change (0x03#8 ++ 0#16 ++ ch ++ on ++ off) &&& (0xFF#8 ++ BitVec.allOnes 16 ++ 0#8 ++ 0#16 ++ 0#16) = _
  case' setAll on off =>
    refine ⟨opcodeTable[3], List.getElem_mem _, rfl, covers_iff.2 ?_⟩
    change (0x04#8 ++ 0#24 ++ on ++ off) &&& (0xFF#8 ++ BitVec.allOnes 24 ++ 0#16 ++ 0#16) = _
  case' setPin pin val =>
    refine ⟨opcodeTable[4], List.getElem_mem _, rfl, covers_iff.2 ?_⟩
    change (0x05#8 ++ 0#40 ++ pin ++ val) &&& (0xFF#8 ++ BitVec.allOnes 40 ++ 0#8 ++ 0#8) = _
  case' getStepper axis =>
    refine ⟨opcodeTable[5], List.getElem_mem _, rfl, covers_iff.2 ?_⟩
    change (0x06#8 ++ axis ++ 0#48) &&& (0xFF#8 ++ 0#8 ++ BitVec.allOnes 48) = _
  case' setSpeed axis rpm =>
    refine ⟨opcodeTable[6], List.getElem_mem _, rfl, covers_iff.2 ?_⟩
    change (0x07#8 ++ axis ++ 0#32 ++ rpm) &&& (0xFF#8 ++ 0#8 ++ BitVec.allOnes 32 ++ 0#16) = _
  case' oneStep axis dir style =>
    refine ⟨opcodeTable[7], List.getElem_mem _, rfl, covers_iff.2 ?_⟩
    change (0x08#8 ++ axis ++ dir.code ++ style.code ++ 0#32) &&&
      (0xFF#8 ++ 0#8 ++ 0#8 ++ 0#8 ++ BitVec.allOnes 32) = _
  case' step axis dir style count =>
    refine ⟨opcodeTable[8], List.getElem_mem _, rfl, covers_iff.2 ?_⟩
    change (0x09#8 ++ axis ++ dir.code ++ style.code ++ count) &&& (0xFF#8 ++ 0#8 ++ 0#8 ++ 0#8 ++ 0#32) = _
  all_goals
    simp only [BitVec.and_append, BitVec.and_zero]
    rfl

/-- Settles O4: the word is the encoding of its command. -/
theorem decodedWordLiesInItsTableRow : Obligations.DecodedWordLiesInItsTableRow := by
  intro w i h
  rw [← (decode_eq_instr_iff.1 h).1]
  exact exists_row_covers_encode i

/-- Settles O5, by computation on each word. -/
theorem workedEncodingsDecode : Obligations.WorkedEncodingsDecode := by
  unfold Obligations.WorkedEncodingsDecode
  decide

end Sys2Proof
end

section
/-! The operand forms: the two bytes of a duty value and the axis an operand names. -/

namespace Sys2Proof.Machine

theorem dutyLow_toNat (v : Word16) : (dutyLow v).toNat = v.toNat % 256 := by
  simp [dutyLow, BitVec.extractLsb'_toNat]

theorem dutyHigh_toNat (v : Word16) : (dutyHigh v).toNat = v.toNat / 256 % 32 := by
  simp only [dutyHigh, BitVec.toNat_setWidth, BitVec.extractLsb'_toNat, Nat.shiftRight_eq_div_pow]
  omega

/-- Settles O43: the fields of the two bytes by arithmetic on their values. -/
theorem dutyBytesOfAWindow : Obligations.DutyBytesOfAWindow := by
  intro v hv
  refine ⟨rfl, ?_, ?_, ?_, ?_⟩
  · apply BitVec.eq_of_toNat_eq
    rw [BitVec.extractLsb'_toNat, BitVec.extractLsb'_toNat, dutyHigh_toNat, Nat.shiftRight_eq_div_pow,
      Nat.shiftRight_eq_div_pow]
    omega
  · have hbit : (dutyHigh v).getLsbD 4 = true ↔ v.toNat / 256 % 32 / 2 ^ 4 % 2 = 1 := by
      rw [BitVec.getLsbD, dutyHigh_toNat, Nat.testBit_eq_decide_div_mod_eq, decide_eq_true_iff]
    have hmax : v = 4096 ↔ v.toNat = 4096 := BitVec.toNat_inj.symm
    rw [hbit, hmax]
    omega
  · apply BitVec.eq_of_toNat_eq
    rw [BitVec.extractLsb'_toNat, dutyHigh_toNat, Nat.shiftRight_eq_div_pow]
    change _ = 0
    omega
  · rw [dutyHigh_toNat, dutyLow_toNat]
    omega

theorem axisOf_eq_none {b : Byte} (h1 : b ≠ 1) (h2 : b ≠ 2) : axisOf b = none := by
  rw [axisOf, if_neg h1, if_neg h2]

/-- Settles O60: each axis's accessors are its own fields by their definitions. -/
theorem axisOperandNamesItsMotor : Obligations.AxisOperandNamesItsMotor :=
  ⟨rfl, rfl, fun _ => axisOf_eq_none, fun _ => ⟨rfl, rfl, rfl, rfl⟩, fun _ _ => ⟨rfl, rfl⟩, fun _ _ => ⟨rfl, rfl⟩,
    fun _ => ⟨rfl, rfl, rfl, rfl⟩⟩

end Sys2Proof.Machine
end

section
/-! The packer's commands and SET_SPEED (spec/40_pwm_packer.md section 2, spec/41_stepper_sequencer.md R191): each is
a list of writes, whose (offset, byte) pairs are those of its duty windows. -/

namespace Sys2Proof.Machine

/-! ### Duty windows as writes -/

/-- The writes of a channel's duty window (R130). -/
def channelLines (ch : Channel) (on off : Word16) : List (DevReg × Byte) := [
  (.led ch .onL, dutyLow on), (.led ch .onH, dutyHigh on),
  (.led ch .offL, dutyLow off), (.led ch .offH, dutyHigh off)]

/-- The writes of the broadcast duty window (R131). -/
def allLines (on off : Word16) : List (DevReg × Byte) := [
  (.allLed .onL, dutyLow on), (.allLed .onH, dutyHigh on),
  (.allLed .offL, dutyLow off), (.allLed .offH, dutyHigh off)]

/-- The writes of a pin value (R134). -/
def pinLines (pin : Channel) (v : Bool) : List (DevReg × Byte) :=
  if v then channelLines pin fullDuty 0 else channelLines pin 0 fullDuty

theorem writeChannel_eq_writeLines (ch : Channel) (on off : Word16) :
    writeChannel ch on off = writeLines (channelLines ch on off) := writeChannel_eq ch on off

theorem writeAll_eq_writeLines (on off : Word16) : writeAll on off = writeLines (allLines on off) := writeAll_eq on off

theorem writePin_eq_writeLines (pin : Channel) (v : Bool) : writePin pin v = writeLines (pinLines pin v) := by
  cases v <;> exact writeChannel_eq pin _ _

theorem offsetsOf_channelLines (ch : Channel) (on off : Word16) :
    offsetsOf (channelLines ch on off) = windowWrites (channelBase ch) on off := by
  have honL : (DevReg.led ch .onL).offset = channelBase ch := (led_offset ch .onL).trans (BitVec.add_zero _)
  simp only [channelLines, offsetsOf, List.map_cons, List.map_nil, honL, led_offset]
  rfl

theorem offsetsOf_allLines (on off : Word16) : offsetsOf (allLines on off) = windowWrites 0xFA on off := rfl

theorem offsetsOf_pinLines (pin : Channel) (v : Bool) : offsetsOf (pinLines pin v) = pinWrites pin v := by
  cases v <;> exact offsetsOf_channelLines pin _ _

/-- The base offset of the channel an operand in range names (R90, R108). -/
theorem channelBase_channelOfByte {b : Byte} (h : b.toNat ≤ 15) : channelBase (channelOfByte b) = 0x06 + 4 * b := by
  have hb : (channelOfByte b).setWidth 8 = b := by
    apply BitVec.eq_of_toNat_eq
    simp only [channelOfByte, BitVec.toNat_setWidth]
    omega
  rw [channelBase, hb]

theorem channelInRange_of_le {ch : Byte} (h : ch.toNat ≤ 15) : channelInRange ch = true := decide_eq_true h

theorem dutyInRange_of_le {v : Word16} (h : v.toNat ≤ 4096) : dutyInRange v = true := decide_eq_true h

/-! ### Commands of writes -/

/-- A command whose lines are some without a transaction, then writes, ends as `State.writesEnd` says from the state
the first lines leave. -/
theorem exec_writesEnd {i : Instr} {s u : State} {pre : List MicroOp} {ws : List (DevReg × Byte)} {result : Byte}
    (hs : s.position = .idle) (hu : u.position = .idle) (hpre : runOps pre s = .done u)
    (hv : verdictOf i s = .run (pre ++ writeLines ws) none result) :
    ∃ t, exec i s = .next t ∧ u.writesEnd (offsetsOf ws) (0x00#8 ++ result) t := by
  refine ⟨_, exec_of_idle hs i, ?_⟩
  rw [hv, carryOut_run_none, runOps_append, hpre, andThen_done]
  exact closeCommand_writeLines hu ws result

/-- A command that is writes from its first line. -/
theorem exec_writeLines {i : Instr} {s : State} {ws : List (DevReg × Byte)} (hs : s.position = .idle)
    (hv : verdictOf i s = .run (writeLines ws) none 0) :
    ∃ t, exec i s = .next t ∧ s.writesEnd (offsetsOf ws) 0x0000 t := exec_writesEnd (pre := []) hs hs rfl hv

/-- Settles O24: the lines are the window's four writes. -/
theorem setChannelWritesTheWindow : Obligations.SetChannelWritesTheWindow := by
  rintro s ch on off ⟨hidle, hinit⟩ hch hon hoff
  rw [← channelBase_channelOfByte hch, ← offsetsOf_channelLines]
  apply exec_writeLines hidle
  rw [verdictOf, channelInRange_of_le hch, dutyInRange_of_le hon, dutyInRange_of_le hoff,
    needInit_of_initialized hinit, writeChannel_eq_writeLines]
  rfl

/-- Settles O25: the lines are the broadcast window's four writes. -/
theorem setAllWritesTheBroadcastWindow : Obligations.SetAllWritesTheBroadcastWindow := by
  rintro s on off ⟨hidle, hinit⟩ hon hoff
  rw [← offsetsOf_allLines]
  apply exec_writeLines hidle
  rw [verdictOf, dutyInRange_of_le hon, dutyInRange_of_le hoff, needInit_of_initialized hinit, writeAll_eq_writeLines]
  rfl

/-- SET_PIN with a pin in range and the value 0 or 1 makes the pin value's writes (R134, R144). -/
theorem exec_setPin {s : State} {pin val : Byte} (hs : s.Ready) (hpin : pin.toNat ≤ 15) (hval : val.toNat ≤ 1) :
    ∃ t, exec (.setPin pin val) s = .next t ∧ s.writesEnd (pinWrites (channelOfByte pin) (val == 1)) 0x0000 t := by
  obtain ⟨hidle, hinit⟩ := hs
  rw [← offsetsOf_pinLines]
  apply exec_writeLines hidle
  rw [verdictOf, needInit_of_initialized hinit, if_neg (by omega), if_neg (by omega), writePin_eq_writeLines]

/-- Settles O26: the two values of one command, with the bytes of their windows computed. -/
theorem setPinWritesASentinelWindow : Obligations.SetPinWritesASentinelWindow := by
  rintro s pin b hs hpin rfl
  rw [← channelBase_channelOfByte hpin]
  exact ⟨exec_setPin hs hpin (val := 1) (by decide), exec_setPin hs hpin (val := 0) (by decide)⟩

/-- Settles O28: the speed is stored without a transaction, then come the writes of the two pins. -/
theorem setSpeedStoresAndPowersTheBridges : Obligations.SetSpeedStoresAndPowersTheBridges := by
  rintro s axis a rpm ⟨hidle, hinit⟩ ha hrpm
  rw [← offsetsOf_pinLines, ← offsetsOf_pinLines, ← offsetsOf_append]
  apply exec_writesEnd (pre := [.setRpm a rpm]) (result := 0) hidle ((setRpm_position s a rpm).trans hidle) rfl
  rw [verdictOf, needInit_of_initialized hinit, needAxis_of_some ha, if_neg hrpm, writePin_eq_writeLines,
    writePin_eq_writeLines, writeLines_append]
  rfl

end Sys2Proof.Machine
end

section
/-! The prescale of a frequency (spec/40_pwm_packer.md R132, R133, R137): the integer expression is a rational floor,
the rational value never ties, and the valid frequencies follow from where the expression passes an integer. -/

namespace Sys2Proof.Machine

/-! ### The integer expression -/

/-- R132 with the numbers of the reference oscillator. -/
theorem prescaleInt_eq (hz : Nat) :
    prescaleInt hz = ((50000000 + 4096 * hz) / (8192 * hz) : Nat) - 1 := rfl

theorem prescaleInt_eq_floor {hz : Nat} (h : 0 < hz) :
    prescaleInt hz = ⌊(25000000 : ℚ) / (4096 * hz) - 1 + 1 / 2⌋ := by
  have hfrac : (25000000 : ℚ) / (4096 * hz) - 1 + 1 / 2 =
      ((50000000 + 4096 * hz : ℕ) : ℚ) / ((8192 * hz : ℕ) : ℚ) - 1 := by
    have hne : (hz : ℚ) ≠ 0 := Nat.cast_ne_zero.mpr h.ne'
    push_cast
    field_simp
    ring
  rw [hfrac, Int.floor_sub_one, Rat.floor_natCast_div_natCast, prescaleInt_eq, Int.natCast_ediv]

/-- Where the expression reaches an integer: the test of R132's division, multiplied out. -/
theorem le_prescaleInt_iff {hz : Nat} (h : 0 < hz) (k : Nat) :
    (k : Int) ≤ prescaleInt hz ↔ (k + 1) * (8192 * hz) ≤ 50000000 + 4096 * hz := by
  rw [← Nat.le_div_iff_mul_le (by omega), prescaleInt_eq]
  omega

/-! ### Ties -/

/-- Twice the oscillator's frequency is no multiple of 4096 (R133). -/
theorem prescale_ne_half {hz : Nat} (h : 0 < hz) (k : ℤ) : (25000000 : ℚ) / (4096 * hz) - 1 ≠ k + 1 / 2 := by
  intro htie
  have hne : (hz : ℚ) ≠ 0 := Nat.cast_ne_zero.mpr h.ne'
  have hrat : (50000000 : ℚ) = 4096 * (hz * (2 * k + 3)) := by
    field_simp at htie
    linarith
  have hint : (50000000 : ℤ) = 4096 * (hz * (2 * k + 3)) := by exact_mod_cast hrat
  omega

/-- Settles O46: the nearest integer lies strictly within one half above, so it is the floor of R132. -/
theorem prescaleNeverTies : Obligations.PrescaleNeverTies := by
  refine fun hz h => ⟨prescale_ne_half h, fun n hn => ?_⟩
  obtain ⟨hlow, hhigh⟩ := abs_le.mp hn
  have hstrict : (25000000 : ℚ) / (4096 * hz) - 1 < n + 1 / 2 :=
    lt_of_le_of_ne (by linarith) (prescale_ne_half h n)
  rw [prescaleInt_eq_floor h, eq_comm, Int.floor_eq_iff]
  constructor <;> linarith

/-! ### The valid frequencies -/

theorem prescaleOf_zero : prescaleOf 0 = none := rfl

/-- The range check of R132 with its bounds written out. -/
theorem prescaleOf_of_ne_zero {hz : Word16} (h0 : hz ≠ 0) : prescaleOf hz =
    if 3 ≤ prescaleInt hz.toNat ∧ prescaleInt hz.toNat ≤ 255 then some (BitVec.ofInt 8 (prescaleInt hz.toNat))
    else none := by
  have hrange : ¬(prescaleInt hz.toNat < prescaleMin ∨ prescaleMax < prescaleInt hz.toNat) ↔
      3 ≤ prescaleInt hz.toNat ∧ prescaleInt hz.toNat ≤ 255 := by
    rw [not_or, not_lt, not_lt]
    rfl
  rw [prescaleOf, if_neg h0, ← ite_not, if_congr hrange rfl rfl]

theorem prescaleOf_isSome_iff {hz : Word16} (h0 : hz ≠ 0) :
    (prescaleOf hz).isSome = true ↔ 3 ≤ prescaleInt hz.toNat ∧ prescaleInt hz.toNat ≤ 255 := by
  rw [prescaleOf_of_ne_zero h0, Option.isSome_ite]

theorem prescaleOf_eq_some_iff {hz : Word16} (h0 : hz ≠ 0) {p : Byte} : prescaleOf hz = some p ↔
    3 ≤ prescaleInt hz.toNat ∧ prescaleInt hz.toNat ≤ 255 ∧ (p.toNat : Int) = prescaleInt hz.toNat := by
  rw [prescaleOf_of_ne_zero h0, Option.ite_none_right_eq_some, Option.some_inj, and_assoc]
  refine and_congr_right fun hlow => and_congr_right fun hhigh => ?_
  rw [← BitVec.toNat_inj, BitVec.toNat_ofInt]
  omega

/-- Settles O47: 24 and 1743 are where the multiplied-out tests for 256 and 3 change. -/
theorem validFrequenciesAre24To1743 : Obligations.ValidFrequenciesAre24To1743 := by
  refine ⟨fun hz => ?_, rfl, rfl, rfl, rfl, fun hz hlow hhigh => ?_⟩
  · by_cases h0 : hz = 0
    · subst h0
      decide
    · have hpos : 0 < hz.toNat := by bv_omega
      have hmin := le_prescaleInt_iff hpos 3
      have hmax := le_prescaleInt_iff hpos 256
      rw [prescaleOf_isSome_iff h0]
      omega
  · have hpos : 0 < hz.toNat := by omega
    have hge := le_prescaleInt_iff hpos 3
    have hlt := le_prescaleInt_iff hpos 4
    have h3 : prescaleInt hz.toNat = 3 := by omega
    have h0 : hz ≠ 0 := fun h => absurd (h ▸ hpos) (by decide)
    rw [prescaleOf_of_ne_zero h0, h3]
    rfl

/-! ### An invalid frequency -/

/-- A failed check answers its error and does nothing else (R232, R240). -/
theorem exec_of_raise {i : Instr} {s : State} {e : Status} {info : Byte} (hidle : s.position = .idle)
    (hv : verdictOf i s = .raise e info) : exec i s = .next (s.answered (e.code ++ info)) := by
  rw [exec_of_idle hidle, hv, carryOut, raise_eq, respond_of_idle hidle]

/-- Settles O45: the floor, the value of a valid frequency, and the check INIT and SET_FREQ make. -/
theorem prescaleIsTheRoundedFormula : Obligations.PrescaleIsTheRoundedFormula := by
  refine ⟨fun hz h => ⟨prescaleInt_eq_floor h, prescaleInt_eq hz⟩, prescaleOf_zero, ?_, fun hz h0 p => ?_⟩
  · rintro s hz ⟨hidle, hinit⟩ hp
    exact ⟨exec_of_raise (i := .init hz) hidle (needPrescale_of_none hp _),
      exec_of_raise (i := .setFreq hz) hidle ((needInit_of_initialized hinit _).trans (needPrescale_of_none hp _))⟩
  · exact prescaleOf_eq_some_iff h0

end Sys2Proof.Machine
end

section
/-! Phase arithmetic (spec/10_state.md R33, spec/41_stepper_sequencer.md R180 to R183, R200 to R206). After its first
step every style moves by one fixed stride, so the later phases are a sum. INTERLEAVE and MICROSTEP move by it from the
start; DOUBLE and SINGLE may begin with a shorter step, from an index of the other parity. -/

namespace Sys2Proof.Machine

/-! ### One step -/

theorem oddIndex_eq (p : Phase) : oddIndex p = !decide (p.toNat / 4 % 2 = 0) := by
  rw [oddIndex, BitVec.getLsbD, patternIndex_toNat, Nat.testBit_zero, ← decide_not, decide_eq_decide]
  omega

theorem ite_oddIndex {α : Type} (p : Phase) (x y : α) :
    (if oddIndex p then x else y) = if p.toNat / 4 % 2 = 0 then y else x := by
  simp only [oddIndex_eq, Bool.not_eq_true', decide_eq_false_iff_not, ite_not]

/-- R41. -/
theorem energized_patternOf (p : Phase) : (patternOf p).energized = if oddIndex p then 2 else 1 := by
  obtain ⟨-, -, henergized, -⟩ := patternIsTheTableEntry p
  rw [henergized, ite_oddIndex]

@[simp] theorem delta_double (p : Phase) : delta .double p = if oddIndex p then 8 else 4 := rfl
@[simp] theorem delta_single (p : Phase) : delta .single p = if oddIndex p then 4 else 8 := rfl
@[simp] theorem delta_interleave (p : Phase) : delta .interleave p = 4 := rfl
@[simp] theorem delta_microstep (p : Phase) : delta .microstep p = 1 := rfl

theorem delta_le (style : Style) (p : Phase) : delta style p ≤ 8 := by
  cases style <;> cases h : oddIndex p <;> simp [h]

theorem nextPhase_forward (style : Style) (p : Phase) :
    nextPhase .forward style p = p + BitVec.ofNat 5 (delta style p) := by
  apply BitVec.eq_of_toNat_eq
  simp [nextPhase, nphase, microsteps]

theorem nextPhase_backward (style : Style) (p : Phase) :
    nextPhase .backward style p = p - BitVec.ofNat 5 (delta style p) := by
  have hd := delta_le style p
  apply BitVec.eq_of_toNat_eq
  simp only [nextPhase, nphase, microsteps, BitVec.toNat_ofNat, BitVec.toNat_sub]
  omega

/-- Settles O48: both directions are sums in five bits, and the table's rows are the definition's branches. -/
theorem stepIsWrapAroundByTheTable : Obligations.StepIsWrapAroundByTheTable := fun p =>
  ⟨fun style => ⟨nextPhase_forward style p, nextPhase_backward style p⟩,
    (delta_double p).trans (ite_oddIndex p 8 4), (delta_single p).trans (ite_oddIndex p 4 8), rfl, rfl⟩

/-! ### The steady stride -/

/-- The phases from which a style moves by its steady stride. -/
def Steady (p : Phase) : Style → Prop
  | .single => oddIndex p = false
  | .double => oddIndex p = true
  | .interleave => True
  | .microstep => True

/-- The increment of a style at those phases. -/
def stride : Style → Nat
  | .single => 8
  | .double => 8
  | .interleave => 4
  | .microstep => 1

/-- The displacement of a move by `m` in a direction. -/
def displacement : Direction → Phase → Phase
  | .forward, m => m
  | .backward, m => -m

theorem nextPhase_eq_add (dir : Direction) (style : Style) (p : Phase) :
    nextPhase dir style p = p + displacement dir (BitVec.ofNat 5 (delta style p)) := by
  cases dir with
  | forward => exact nextPhase_forward style p
  | backward => rw [nextPhase_backward, sub_eq_add_neg]; rfl

theorem displacement_add (dir : Direction) (m n : Phase) :
    displacement dir (m + n) = displacement dir m + displacement dir n := by
  cases dir with
  | forward => rfl
  | backward => exact neg_add m n

theorem delta_of_steady {style : Style} {p : Phase} (h : Steady p style) : delta style p = stride style := by
  cases style with
  | single => rw [delta_single, h]; rfl
  | double => rw [delta_double, h]; rfl
  | interleave => rfl
  | microstep => rfl

/-- A move by one index exchanges even and odd ones. -/
theorem oddIndex_add_four (dir : Direction) (p : Phase) : oddIndex (p + displacement dir 4#5) = !oddIndex p := by
  rw [oddIndex_eq, oddIndex_eq, ← decide_not, ← decide_not, ← decide_not, decide_eq_decide]
  cases dir with
  | forward => rw [displacement]; bv_omega
  | backward => rw [displacement]; bv_omega

theorem oddIndex_add_eight (dir : Direction) (p : Phase) : oddIndex (p + displacement dir 8#5) = oddIndex p := by
  rw [oddIndex_eq, oddIndex_eq, ← decide_not, ← decide_not, decide_eq_decide]
  cases dir with
  | forward => rw [displacement]; bv_omega
  | backward => rw [displacement]; bv_omega

/-- R201, R204: after any step the phase is one from which the style moves by its steady stride. -/
theorem steady_nextPhase (dir : Direction) (style : Style) (p : Phase) : Steady (nextPhase dir style p) style := by
  rw [nextPhase_eq_add]
  cases style with
  | single => cases h : oddIndex p <;> simp [Steady, h, oddIndex_add_four, oddIndex_add_eight]
  | double => cases h : oddIndex p <;> simp [Steady, h, oddIndex_add_four, oddIndex_add_eight]
  | interleave => trivial
  | microstep => trivial

/-! ### Many steps -/

theorem phaseAfter_succ (dir : Direction) (style : Style) (n : Nat) (p : Phase) :
    phaseAfter dir style (n + 1) p = nextPhase dir style (phaseAfter dir style n p) := by
  induction n generalizing p with
  | zero => rfl
  | succ n ih => exact ih (nextPhase dir style p)

theorem steady_phaseAfter {n : Nat} (hn : 1 ≤ n) (dir : Direction) (style : Style) (p : Phase) :
    Steady (phaseAfter dir style n p) style := by
  obtain ⟨m, rfl⟩ := Nat.exists_eq_add_of_le' hn
  rw [phaseAfter_succ]
  exact steady_nextPhase dir style _

/-- From a steady phase every step is one stride. -/
theorem phaseAfter_of_steady (dir : Direction) {style : Style} {p : Phase} (h : Steady p style) (n : Nat) :
    phaseAfter dir style n p = p + displacement dir (BitVec.ofNat 5 (stride style * n)) := by
  induction n generalizing p with
  | zero => cases dir <;> simp [phaseAfter, displacement]
  | succ n ih =>
    rw [phaseAfter, ih (steady_nextPhase dir style p), nextPhase_eq_add, delta_of_steady h, add_assoc,
      ← displacement_add, ← BitVec.ofNat_add, Nat.mul_succ, Nat.add_comm]

theorem phaseAfter_forward_of_steady {style : Style} {p : Phase} (h : Steady p style) (n : Nat) :
    phaseAfter .forward style n p = p + BitVec.ofNat 5 (stride style * n) := phaseAfter_of_steady .forward h n

theorem phaseAfter_backward_of_steady {style : Style} {p : Phase} (h : Steady p style) (n : Nat) :
    phaseAfter .backward style n p = p - BitVec.ofNat 5 (stride style * n) :=
  (phaseAfter_of_steady .backward h n).trans (sub_eq_add_neg _ _).symm

/-- Strides that together make a whole turn of 32 return to the start. -/
theorem phaseAfter_turn (dir : Direction) {style : Style} {p : Phase} (h : Steady p style) {n : Nat}
    (hn : 32 ∣ stride style * n) : phaseAfter dir style n p = p := by
  have hzero : BitVec.ofNat 5 (stride style * n) = 0#5 := BitVec.eq_of_toNat_eq (Nat.mod_eq_zero_of_dvd hn)
  rw [phaseAfter_of_steady dir h, hzero]
  cases dir <;> simp [displacement]

theorem steady_phaseAfter_of_steady (dir : Direction) {style : Style} {p : Phase} (h : Steady p style) (n : Nat) :
    Steady (phaseAfter dir style n p) style := by
  cases n with
  | zero => exact h
  | succ n => exact steady_phaseAfter (Nat.succ_pos n) dir style p

/-- From a steady phase, the steps BACKWARD visit the phases of the steps FORWARD in reverse. -/
theorem phaseAfter_backward_forward {style : Style} {p : Phase} (h : Steady p style) {k n : Nat} (hk : k ≤ n) :
    phaseAfter .backward style k (phaseAfter .forward style n p) = phaseAfter .forward style (n - k) p := by
  obtain ⟨m, rfl⟩ := Nat.exists_eq_add_of_le' hk
  rw [phaseAfter_backward_of_steady (steady_phaseAfter_of_steady .forward h _), phaseAfter_forward_of_steady h,
    phaseAfter_forward_of_steady h, Nat.add_sub_cancel, Nat.mul_add, BitVec.ofNat_add, ← add_assoc,
    add_sub_cancel_right]

/-- From a steady phase, the steps BACKWARD undo as many FORWARD. -/
theorem phaseAfter_backward_forward_self {style : Style} {p : Phase} (h : Steady p style) (n : Nat) :
    phaseAfter .backward style n (phaseAfter .forward style n p) = p := by
  rw [phaseAfter_backward_forward h le_rfl, Nat.sub_self, phaseAfter]

/-- From any phase, the steps BACKWARD undo as many FORWARD but for the first step, from which they take a stride. -/
theorem phaseAfter_backward_forward_any {n : Nat} (hn : 1 ≤ n) (style : Style) (p : Phase) :
    phaseAfter .backward style n (phaseAfter .forward style n p) =
      nextPhase .forward style p - BitVec.ofNat 5 (stride style) := by
  obtain ⟨m, rfl⟩ := Nat.exists_eq_add_of_le' hn
  have hsteady := steady_nextPhase .forward style p
  have hback := phaseAfter_backward_forward_self hsteady m
  rw [phaseAfter_succ .backward, phaseAfter, hback, nextPhase_backward, delta_of_steady hsteady]

/-! ### DOUBLE -/

/-- Settles O56: an odd index is DOUBLE's steady phase. -/
theorem doubleLandsOnOddIndex : Obligations.DoubleLandsOnOddIndex := by
  intro dir p n
  refine ⟨fun hn => ?_, ?_, ?_⟩
  · have hodd : oddIndex (phaseAfter dir .double n p) = true := steady_phaseAfter hn dir .double p
    exact ⟨hodd, by rw [energized_patternOf, hodd]; rfl⟩
  · rw [nextPhase_forward, delta_double, apply_ite (BitVec.ofNat 5)]; rfl
  · rw [nextPhase_backward, delta_double, apply_ite (BitVec.ofNat 5)]; rfl

/-- Settles O50: from an odd index all steps are of 8; from an even one the first is of 4, and 4 + 8k is no multiple of
32. -/
theorem doubleForwardReturnsOnlyFromOddIndex : Obligations.DoubleForwardReturnsOnlyFromOddIndex := by
  intro p
  refine ⟨fun hodd => ?_, fun heven n hn => ?_⟩
  · have hsteady : Steady p .double := hodd
    exact ⟨phaseAfter_turn .forward hsteady (by decide), phaseAfter_turn .forward hsteady (by decide)⟩
  · obtain ⟨m, rfl⟩ := Nat.exists_eq_add_of_le' hn
    have hend : (phaseAfter .forward .double (m + 1) p).toNat = (p.toNat + 4 + 8 * m) % 32 := by
      rw [phaseAfter, phaseAfter_forward_of_steady (steady_nextPhase .forward .double p), nextPhase_forward,
        delta_double, heven]
      simp [stride]
    refine ⟨hend, fun hreturn => ?_⟩
    rw [hreturn] at hend
    omega

/-- Settles O51: from an even index only the first of the steps FORWARD is of 4. -/
theorem doubleBackwardUndoesForwardOnlyFromOddIndex : Obligations.DoubleBackwardUndoesForwardOnlyFromOddIndex := by
  refine fun p n => ⟨fun hodd => ?_, fun heven hn => ?_⟩
  · have hsteady : Steady p .double := hodd
    exact ⟨fun k _ => phaseAfter_forward_of_steady hsteady k, fun k hk => phaseAfter_backward_forward hsteady hk⟩
  · rw [phaseAfter_backward_forward_any hn, nextPhase_forward, delta_double, heven]
    change p + 4#5 - 8#5 = p - 4#5
    bv_omega

/-! ### SINGLE -/

/-- Settles O52: an even index is SINGLE's steady phase, and from an odd one the first step FORWARD is 4 short of a
stride. -/
theorem singleMirrorsDouble : Obligations.SingleMirrorsDouble := by
  refine fun p n => ⟨fun dir hn => ?_, fun heven dir => ?_, ?_, ?_, fun hn => ⟨fun hreturn => ?_, fun heven => ?_⟩⟩
  · have heven : oddIndex (phaseAfter dir .single n p) = false := steady_phaseAfter hn dir .single p
    exact ⟨heven, by rw [energized_patternOf, heven]; rfl⟩
  · exact phaseAfter_turn dir (style := .single) heven (by decide)
  · rw [nextPhase_forward, delta_single, apply_ite (BitVec.ofNat 5)]; rfl
  · rw [nextPhase_backward, delta_single, apply_ite (BitVec.ofNat 5)]; rfl
  · by_contra hodd
    rw [phaseAfter_backward_forward_any hn, nextPhase_forward, delta_single, eq_true_of_ne_false hodd] at hreturn
    have hshort : p + 4#5 - 8#5 ≠ p := by bv_omega
    exact hshort hreturn
  · exact phaseAfter_backward_forward_self (style := .single) heven n

/-! ### INTERLEAVE and MICROSTEP -/

/-- Settles O53: every phase is INTERLEAVE's steady phase, and a step of 4 exchanges even and odd indices. -/
theorem interleaveIsReversible : Obligations.InterleaveIsReversible := by
  intro p n
  have hsteady : Steady p .interleave := trivial
  refine ⟨phaseAfter_forward_of_steady hsteady n, phaseAfter_backward_of_steady hsteady n,
    fun dir => ⟨phaseAfter_turn dir hsteady (by decide), ?_⟩, phaseAfter_backward_forward_self hsteady n⟩
  rw [energized_patternOf, energized_patternOf, nextPhase_eq_add, delta_interleave, oddIndex_add_four]
  cases oddIndex p <;> rfl

/-- The eight entries of the table are distinct (R39), so the pattern tells the index. -/
theorem patternOf_ne_iff (p q : Phase) : patternOf p ≠ patternOf q ↔ p.toNat / 4 ≠ q.toNat / 4 := by
  have htable : ∀ i j : Fin 8, patternTable.get i = patternTable.get j ↔ i = j := by decide
  rw [not_iff_not, ← patternIndex_toNat, ← patternIndex_toNat, patternOf, patternOf, htable, BitVec.toFin_inj,
    BitVec.toNat_inj]

/-- Settles O54: every phase is MICROSTEP's steady phase, and a step of 1 changes the index at a multiple of 4 only. -/
theorem microstepIsReversible : Obligations.MicrostepIsReversible := by
  intro p n
  have hsteady : Steady p .microstep := trivial
  have hforward := phaseAfter_forward_of_steady hsteady n
  have hbackward := phaseAfter_backward_of_steady hsteady n
  rw [stride, one_mul] at hforward hbackward
  refine ⟨hforward, hbackward, fun dir => phaseAfter_turn dir hsteady (by decide),
    phaseAfter_backward_forward_self hsteady n, ?_, ?_⟩
  · rw [patternOf_ne_iff, nextPhase_forward, delta_microstep]
    bv_omega
  · rw [patternOf_ne_iff, nextPhase_backward, delta_microstep]
    bv_omega

/-! ### The low bits -/

/-- The bits below a pattern's index are the phase within its quarter (R180). -/
theorem lowBits_eq_iff (p q : Phase) : p.extractLsb' 0 2 = q.extractLsb' 0 2 ↔ p.toNat % 4 = q.toNat % 4 := by
  rw [← BitVec.toNat_inj, BitVec.extractLsb'_toNat, BitVec.extractLsb'_toNat, Nat.shiftRight_zero, Nat.shiftRight_zero]

theorem four_dvd_delta {style : Style} (hstyle : style ≠ .microstep) (p : Phase) : 4 ∣ delta style p := by
  cases style with
  | single => cases h : oddIndex p <;> simp [h]
  | double => cases h : oddIndex p <;> simp [h]
  | interleave => exact dvd_rfl
  | microstep => exact absurd rfl hstyle

theorem nextPhase_lowBits {style : Style} (hstyle : style ≠ .microstep) (dir : Direction) (p : Phase) :
    (nextPhase dir style p).extractLsb' 0 2 = p.extractLsb' 0 2 := by
  obtain ⟨m, hm⟩ := four_dvd_delta hstyle p
  rw [lowBits_eq_iff]
  cases dir with
  | forward => rw [nextPhase_forward, hm]; bv_omega
  | backward => rw [nextPhase_backward, hm]; bv_omega

/-- Settles O55: increments that are multiples of 4 keep the phase modulo 4, and 1 does not. -/
theorem onlyMicrostepChangesTheLowBits : Obligations.OnlyMicrostepChangesTheLowBits := by
  refine fun dir p => ⟨fun style hstyle => ⟨four_dvd_delta hstyle p, fun n => ?_⟩, ?_⟩
  · induction n with
    | zero => rfl
    | succ n ih => rw [phaseAfter_succ, nextPhase_lowBits hstyle, ih]
  · rw [Ne, lowBits_eq_iff]
    cases dir with
    | forward => rw [nextPhase_forward, delta_microstep]; bv_omega
    | backward => rw [nextPhase_backward, delta_microstep]; bv_omega

end Sys2Proof.Machine
end

section
/-! The sequencer's commands (spec/41_stepper_sequencer.md R184 to R193): one step is a move of the phase and sixteen
writes; STEP's iterations are that step again and again. -/

namespace Sys2Proof.Machine

theorem exists_axisOf {axis : Byte} (h : axis = 1 ∨ axis = 2) : ∃ a, axisOf axis = some a := by
  obtain rfl | rfl := h
  · exact ⟨.one, rfl⟩
  · exact ⟨.two, rfl⟩

/-- Settles O27: no line runs. -/
theorem getStepperOnlyAnswers : Obligations.GetStepperOnlyAnswers := by
  rintro s axis ⟨hidle, hinit⟩ haxis
  obtain ⟨a, ha⟩ := exists_axisOf haxis
  rw [exec_of_idle hidle, verdictOf, needInit_of_initialized hinit, needAxis_of_some ha, carryOut_run_none, runOps_nil,
    closeCommand, respond_of_idle hidle]
  rfl

/-! ### One step -/

/-- The writes of a phase's pattern (R184). -/
def coilLines (pins : PinMap) (n : Phase) : List (DevReg × Byte) :=
  pinLines pins.ain2 (patternOf n).c0 ++ pinLines pins.bin1 (patternOf n).c1 ++
  pinLines pins.ain1 (patternOf n).c2 ++ pinLines pins.bin2 (patternOf n).c3

theorem coilWrite_eq_writeLines (pins : PinMap) (n : Phase) : coilWrite pins n = writeLines (coilLines pins n) := by
  simp only [coilWrite, coilLines, writeLines_append, writePin_eq_writeLines]

theorem offsetsOf_coilLines (pins : PinMap) (n : Phase) : offsetsOf (coilLines pins n) = coilWrites pins n := by
  simp only [coilWrites, coilLines, offsetsOf_append, offsetsOf_pinLines]

theorem oneStepOps_eq_writeLines (a : Axis) (dir : Direction) (style : Style) (s : State) :
    oneStepOps a dir style s = [.setPhase a (nextPhase dir style (s.phase a))] ++
      writeLines (coilLines (s.params.pinMap a) (nextPhase dir style (s.phase a))) := by
  rw [oneStepOps, stepTo, coilWrite_eq_writeLines, List.singleton_append]

/-- Settles O29: the phase is moved without a transaction, then come the writes of the pattern. -/
theorem oneStepMovesAndWritesThePattern : Obligations.OneStepMovesAndWritesThePattern := by
  rintro s axis a dir style n ⟨hidle, hinit⟩ ha rfl
  rw [← offsetsOf_coilLines]
  apply exec_writesEnd (pre := [.setPhase a _]) hidle ((setPhase_position s a _).trans hidle) rfl
  rw [verdictOf, needInit_of_initialized hinit, needAxis_of_some ha, oneStepOps_eq_writeLines]

/-! ### STEP -/

theorem length_coilWrites (pins : PinMap) (n : Phase) : (coilWrites pins n).length = 16 := rfl

theorem length_coilLines (pins : PinMap) (n : Phase) : (coilLines pins n).length = 16 := by
  have hlength := congrArg List.length (offsetsOf_coilLines pins n)
  rwa [offsetsOf, List.length_map, length_coilWrites] at hlength

theorem length_stepWrites (pins : PinMap) (dir : Direction) (style : Style) (n : Nat) (p : Phase) :
    (stepWrites pins dir style n p).length = 16 * n := by
  induction n generalizing p with
  | zero => rfl
  | succ n ih => rw [stepWrites, List.length_append, length_coilWrites, ih]; omega

/-- The transactions of a first step and of the others. -/
theorem okFor_steps_succ {b : Bus} {n : Nat} :
    b.okFor (16 * (n + 1)) = true ↔ b.okFor 16 = true ∧ (b.advanceBy 16).okFor (16 * n) = true := by
  rw [Nat.mul_succ, Nat.add_comm, okFor_add, Bool.and_eq_true]

theorem oneStepBody_eq (a : Axis) (dir : Direction) (style : Style) (s : State) :
    oneStepBody a dir style s = runOps (writeLines (coilLines (s.params.pinMap a) (nextPhase dir style (s.phase a))))
      (s.setPhase a (nextPhase dir style (s.phase a))) := by
  rw [oneStepBody, oneStepOps_eq_writeLines]
  rfl

/-- The state after `n` steps of an axis, all of whose writes have succeeded, and nothing else (R193). -/
def State.stepped (s : State) (a : Axis) (dir : Direction) (style : Style) (n : Nat) : State :=
  (s.setPhase a (phaseAfter dir style n (s.phase a))).wrote
    (stepWrites (s.params.pinMap a) dir style n (s.phase a))

section
variable (s : State) (a : Axis) (dir : Direction) (style : Style) (n : Nat)

@[simp] theorem stepped_position : (s.stepped a dir style n).position = s.position := setPhase_position s a _
@[simp] theorem stepped_initialized : (s.stepped a dir style n).initialized = s.initialized :=
  setPhase_initialized s a _
@[simp] theorem stepped_params : (s.stepped a dir style n).params = s.params := setPhase_params s a _
@[simp] theorem stepped_responses : (s.stepped a dir style n).responses = s.responses := setPhase_responses s a _
@[simp] theorem stepped_phase : (s.stepped a dir style n).phase a = phaseAfter dir style n (s.phase a) := by
  rw [State.stepped, wrote_phase, setPhase_phase_same]
@[simp] theorem stepped_bus : (s.stepped a dir style n).bus = s.bus.advanceBy (16 * n) := by
  rw [State.stepped, wrote_bus, setPhase_bus, length_stepWrites]

theorem stepped_zero : s.stepped a dir style 0 = s := by
  rw [State.stepped, phaseAfter, stepWrites, setPhase_self, wrote_nil]

theorem stepped_one : s.stepped a dir style 1 = (s.setPhase a (nextPhase dir style (s.phase a))).wrote
    (coilWrites (s.params.pinMap a) (nextPhase dir style (s.phase a))) := by
  simp only [State.stepped, phaseAfter, stepWrites, List.append_nil]

theorem stepped_succ : s.stepped a dir style (n + 1) = (s.stepped a dir style 1).stepped a dir style n := by
  rw [State.stepped.eq_def (s.stepped a dir style 1), stepped_phase, stepped_params, stepped_one, wrote_setPhase,
    setPhase_setPhase, wrote_wrote]
  rfl

/-- A phase moved and writes made after `n` steps. -/
theorem stepped_setPhase_wrote (q : Phase) (ws : List (Byte × Byte)) :
    ((s.stepped a dir style n).setPhase a q).wrote ws =
      (s.setPhase a q).wrote (stepWrites (s.params.pinMap a) dir style n (s.phase a) ++ ws) := by
  rw [State.stepped, wrote_setPhase, setPhase_setPhase, wrote_wrote]

end

/-- An iteration all of whose writes succeed. -/
theorem oneStepBody_ok {s : State} (h : s.bus.okFor 16 = true) (a : Axis) (dir : Direction) (style : Style) :
    oneStepBody a dir style s = .done (s.stepped a dir style 1) := by
  have hbus : (s.setPhase a (nextPhase dir style (s.phase a))).bus.okFor 16 = true := by rw [setPhase_bus, h]
  rw [← length_coilLines] at hbus
  rw [oneStepBody_eq, runOps_writeLines_ok _ _ hbus, offsetsOf_coilLines, stepped_one]

/-- An iteration of which one write fails. -/
theorem oneStepBody_failsAfter {s : State} {a : Axis} {dir : Direction} {style : Style} {q : Phase} {j : Nat}
    {w : Byte × Byte} (hq : q = nextPhase dir style (s.phase a)) (hw : (coilWrites (s.params.pinMap a) q)[j]? = some w)
    (h : s.bus.failsAfter j = true) : oneStepBody a dir style s =
      .failed (((s.setPhase a q).wrote ((coilWrites (s.params.pinMap a) q).take j)).record (.failedWrite w.1 w.2))
        w.1 := by
  subst hq
  rw [← offsetsOf_coilLines] at hw ⊢
  rw [oneStepBody_eq]
  exact runOps_writeLines_failsAfter _ _ j w hw ((congrArg _ (setPhase_bus s a _)).trans h)

theorem repeatSteps_add (a : Axis) (dir : Direction) (style : Style) (m n : Nat) (s : State) :
    repeatSteps a dir style (m + n) s = (repeatSteps a dir style m s).andThen (repeatSteps a dir style n) := by
  induction m generalizing s with
  | zero => rw [Nat.zero_add]; rfl
  | succ m ih => rw [Nat.succ_add, repeatSteps, repeatSteps, andThen_assoc]; exact congrArg _ (funext ih)

/-- Iterations all of whose writes succeed. -/
theorem repeatSteps_ok {s : State} {n : Nat} (h : s.bus.okFor (16 * n) = true) (a : Axis) (dir : Direction)
    (style : Style) : repeatSteps a dir style n s = .done (s.stepped a dir style n) := by
  induction n generalizing s with
  | zero => rw [stepped_zero]; rfl
  | succ n ih =>
    obtain ⟨hfirst, hrest⟩ := okFor_steps_succ.mp h
    rw [repeatSteps, oneStepBody_ok hfirst, andThen_done, ih (by rw [stepped_bus]; exact hrest), ← stepped_succ]

theorem exec_step {s : State} (hs : s.Ready) {axis : Byte} {a : Axis} (ha : axisOf axis = some a) (dir : Direction)
    (style : Style) (count : BitVec 32) : exec (.step axis dir style count) s =
      .next (closeCommand 0 (repeatSteps a dir style count.toNat s)) := by
  obtain ⟨hidle, hinit⟩ := hs
  rw [exec_of_idle hidle, verdictOf, needInit_of_initialized hinit, needAxis_of_some ha, carryOut_run, runOps_nil,
    andThen_done, runLoop]

theorem exec_step_ok {s : State} (hs : s.Ready) {axis : Byte} {a : Axis} (ha : axisOf axis = some a) (dir : Direction)
    (style : Style) {count : BitVec 32} (h : s.bus.okFor (16 * count.toNat) = true) :
    exec (.step axis dir style count) s = .next ((s.stepped a dir style count.toNat).answered 0x0000) := by
  rw [exec_step hs ha, repeatSteps_ok h, closeCommand,
    respond_of_idle ((stepped_position s a dir style _).trans hs.1)]
  rfl

/-- Settles O30, by induction on the iterations. -/
theorem stepMakesCountSteps : Obligations.StepMakesCountSteps :=
  fun _ _ _ dir style _ hs ha h => exec_step_ok hs ha dir style h

/-- Settles O31: `k` iterations succeed, and the next one fails. -/
theorem stepEndsInTheIterationTheBusFails : Obligations.StepEndsInTheIterationTheBusFails := by
  rintro s axis a dir style count k j w hs ha hk hw hfail
  obtain ⟨m, hm⟩ := Nat.exists_eq_add_of_lt hk
  rw [failsAfter_add, Bool.and_eq_true] at hfail
  obtain ⟨hok, hfail⟩ := hfail
  have hbody := oneStepBody_failsAfter (s := s.stepped a dir style k) (a := a) (dir := dir) (style := style) (w := w)
    (q := phaseAfter dir style (k + 1) (s.phase a)) (by rw [stepped_phase, phaseAfter_succ])
    (by rw [stepped_params]; exact hw) (by rw [stepped_bus]; exact hfail)
  have hidle : ((s.stepped a dir style k).setPhase a (phaseAfter dir style (k + 1) (s.phase a))).position = .idle := by
    rw [setPhase_position, stepped_position, hs.1]
  rw [exec_step hs ha, hm, Nat.add_assoc, repeatSteps_add, repeatSteps_ok hok, andThen_done, repeatSteps, hbody,
    andThen_failed, closeCommand, raise_eq, respond_busError_of_idle hidle, stepped_setPhase_wrote, stepped_params]

/-! ### STEP and ONE_STEP -/

theorem exec_oneStep_ok {s : State} (hs : s.Ready) {axis : Byte} {a : Axis} (ha : axisOf axis = some a)
    (dir : Direction) (style : Style) (h : s.bus.okFor 16 = true) :
    ∃ r, exec (.oneStep axis dir style) s = .next ((s.stepped a dir style 1).answered r) := by
  obtain ⟨t, hexec, hend, -⟩ := oneStepMovesAndWritesThePattern s axis a dir style _ hs ha rfl
  rw [setPhase_bus, length_coilWrites] at hend
  rw [hexec, hend h, stepped_one]
  exact ⟨_, rfl⟩

/-- A response changes nothing a step reads. -/
theorem answered_stepped (s : State) (r : Word16) (a : Axis) (dir : Direction) (style : Style) (n : Nat) :
    (s.answered r).stepped a dir style n = (s.stepped a dir style n).answered r := by cases a <;> rfl

/-- The state with these responses in place of its own. -/
def State.withResponses (s : State) (rs : List Word16) : State := { s with responses := rs }

theorem withResponses_self (s : State) : s.withResponses s.responses = s := rfl

theorem answered_withResponses (s : State) (r : Word16) (rs : List Word16) :
    (s.answered r).withResponses rs = s.withResponses rs := rfl

theorem execAll_cons_of_next {i : Instr} {s t : State} (h : exec i s = .next t) (is : List Instr) :
    execAll (i :: is) s = execAll is t := by rw [execAll, h]

/-- ONE_STEP commands on a bus that answers: the steps, and a response for each. -/
theorem execAll_oneStep_ok {s : State} {n : Nat} (hs : s.Ready) {axis : Byte} {a : Axis} (ha : axisOf axis = some a)
    (dir : Direction) (style : Style) (h : s.bus.okFor (16 * n) = true) :
    ∃ rs, execAll (List.replicate n (.oneStep axis dir style)) s =
      .next ((s.stepped a dir style n).withResponses rs) ∧ rs.length = s.responses.length + n := by
  induction n generalizing s with
  | zero => exact ⟨s.responses, by rw [stepped_zero, withResponses_self]; rfl, rfl⟩
  | succ n ih =>
    obtain ⟨hfirst, hrest⟩ := okFor_steps_succ.mp h
    obtain ⟨r, hexec⟩ := exec_oneStep_ok hs ha dir style hfirst
    obtain ⟨hidle, hinit⟩ := hs
    obtain ⟨rs, hall, hlen⟩ := ih (s := (s.stepped a dir style 1).answered r)
      ⟨by simpa using hidle, by simpa using hinit⟩ (by simpa using hrest)
    refine ⟨rs, ?_, ?_⟩
    · rw [List.replicate_succ, execAll_cons_of_next hexec, hall, answered_stepped, ← stepped_succ,
        answered_withResponses]
    · rw [hlen, answered_responses, stepped_responses, List.length_append, List.length_singleton]
      omega

/-- Settles O32: both run the same steps, by induction on their number. -/
theorem stepEqualsThatManyOneSteps : Obligations.StepEqualsThatManyOneSteps := by
  rintro s axis dir style count hs haxis h
  obtain ⟨a, ha⟩ := exists_axisOf haxis
  obtain ⟨rs, hall, hlen⟩ := execAll_oneStep_ok hs ha dir style h
  exact ⟨_, rs, exec_step_ok hs ha dir style h, hall, hlen⟩

end Sys2Proof.Machine
end

section
/-! Failed checks (spec/60_exceptions.md R233, R235 to R240): the verdict of a command's checks is an error exactly where
R233's list of checks has one, and that error is all the command answers. -/

namespace Sys2Proof.Machine

/-! ### The error of a verdict is the first failing check's -/

/-- The error a verdict raises, if it raises one. -/
def Verdict.error : Verdict → Option (Status × Byte)
  | .raise e info => some (e, info)
  | .run _ _ _ => none

theorem verdict_eq_raise_of_error {v : Verdict} {e : Status} {info : Byte} (h : v.error = some (e, info)) :
    v = .raise e info := by
  cases v with
  | raise e' info' => cases h; rfl
  | run ops loop result => cases h

theorem needLegal_error {v : Verdict} {next : Option (Status × Byte)} (hv : v.error = next) (legal : Bool) :
    (needLegal legal v).error = errorIf (!legal) .illegalCommand 0 next := by
  cases legal with
  | true => exact hv
  | false => rfl

theorem needInit_error {v : Verdict} {next : Option (Status × Byte)} (hv : v.error = next) (s : State) :
    (needInit s v).error = errorIf (!s.initialized) .notInitialized 0 next := by
  cases h : s.initialized with
  | true => rw [needInit_of_initialized h]; exact hv
  | false => rw [needInit_of_not h]; rfl

theorem needAxis_error {k : Axis → Verdict} {next : Option (Status × Byte)} (hk : ∀ a, (k a).error = next)
    (axis : Byte) : (needAxis axis k).error = errorIf (axisOf axis == none) .invalidAxis axis next := by
  cases h : axisOf axis with
  | none => rw [needAxis_of_none h]; rfl
  | some a => rw [needAxis_of_some h]; exact hk a

theorem needPrescale_error {k : Byte → Verdict} {next : Option (Status × Byte)} (hk : ∀ p, (k p).error = next)
    (hz : Word16) : (needPrescale hz k).error = errorIf (prescaleOf hz == none) .invalidFrequency 0 next := by
  cases h : prescaleOf hz with
  | none => rw [needPrescale_of_none h]; rfl
  | some p => rw [needPrescale_of_some h]; exact hk p

theorem ite_raise_error {v : Verdict} {next : Option (Status × Byte)} (hv : v.error = next) (c : Prop) [Decidable c]
    (e : Status) (info : Byte) : (if c then .raise e info else v : Verdict).error = errorIf (decide c) e info next := by
  by_cases h : c
  · rw [if_pos h, decide_eq_true h]; rfl
  · rw [if_neg h, decide_eq_false h]; exact hv

/-- The commands' checks are those of R233, in its order. -/
theorem verdictOf_error (i : Instr) (s : State) : (verdictOf i s).error = firstError i s := by
  have hrun (ops : List MicroOp) (loop : Option StepLoop) (result : Byte) :
      (Verdict.run ops loop result).error = none := rfl
  cases i with
  | init hz => exact needPrescale_error (fun _ => hrun _ _ _) hz
  | setFreq hz => exact needInit_error (needPrescale_error (fun _ => hrun _ _ _) hz) s
  | setChannel ch on off => exact needLegal_error (needInit_error (hrun _ _ _) s) _
  | setAll on off => exact needLegal_error (needInit_error (hrun _ _ _) s) _
  | setPin pin val => exact needInit_error (ite_raise_error (ite_raise_error (hrun _ _ _) _ _ _) _ _ _) s
  | getStepper axis => exact needInit_error (needAxis_error (fun _ => hrun _ _ _) axis) s
  | setSpeed axis rpm =>
    exact needInit_error (needAxis_error (fun _ => ite_raise_error (hrun _ _ _) _ _ _) axis) s
  | oneStep axis dir style => exact needInit_error (needAxis_error (fun _ => hrun _ _ _) axis) s
  | step axis dir style count => exact needInit_error (needAxis_error (fun _ => hrun _ _ _) axis) s

theorem exec_of_firstError {i : Instr} {s : State} {e : Status} {info : Byte} (hidle : s.position = .idle)
    (h : firstError i s = some (e, info)) : exec i s = .next (s.answered (e.code ++ info)) :=
  exec_of_raise hidle (verdict_eq_raise_of_error ((verdictOf_error i s).trans h))

/-! ### Illegal words -/

theorem decode_of_illegalByRule {w : CommandWord} (h : illegalByRule w = true) : ∃ why, decode w = .illegal why := by
  rw [← decode_isIllegal] at h
  cases hw : decode w with
  | instr i => rw [hw] at h; cases h
  | illegal why => exact ⟨why, rfl⟩

/-- A word that does not decode is taken and answered 0x0600, and nothing else happens (R235, R240). -/
theorem step_of_illegal_answered {s : State} {w : CommandWord} {rest : List CommandWord} {why : DecodeError}
    (hidle : s.position = .idle) (hc : s.commands = w :: rest) (hw : decode w = .illegal why) :
    step s = .next ({ s with commands := rest }.answered 0x0600) := by
  rw [step_of_illegal hidle hc hw, illegalWord, raise_eq, respond_of_idle (by exact hidle)]
  rfl

theorem step_of_illegalByRule {s : State} {w : CommandWord} {rest : List CommandWord} (hidle : s.position = .idle)
    (hc : s.commands = w :: rest) (hw : illegalByRule w = true) :
    step s = .next ({ s with commands := rest }.answered 0x0600) := by
  obtain ⟨why, hdecode⟩ := decode_of_illegalByRule hw
  exact step_of_illegal_answered hidle hc hdecode

/-- Settles O7: the decoder refuses the words illegal by rule. -/
theorem illegalWordIsAnsweredIllegalCommand : Obligations.IllegalWordIsAnsweredIllegalCommand :=
  fun _ _ _ => step_of_illegalByRule

/-- Settles O13: the verdict of the checks is the first failing one's error. -/
theorem failedCheckHasNoSideEffect : Obligations.FailedCheckHasNoSideEffect :=
  ⟨fun _ _ _ _ => exec_of_firstError, fun _ _ _ _ => step_of_illegal_answered⟩

/-! ### The checks one by one -/

theorem firstError_of_not_initialized {i : Instr} {s : State} (hwf : i.wellFormed = true)
    (hi : ∀ hz, i ≠ .init hz) (hinit : s.initialized = false) : firstError i s = some (.notInitialized, 0) := by
  cases i with
  | init hz => exact absurd rfl (hi hz)
  | _ => rw [firstError, hwf, hinit]; rfl

/-- Settles O14: of the checks of a well-formed command the one of `initialized` comes first. -/
theorem notInitializedBeforeInit : Obligations.NotInitializedBeforeInit :=
  fun _ _ hwf hi hidle hinit => exec_of_firstError hidle (firstError_of_not_initialized hwf hi hinit)

/-- Settles O15: the four commands make the same check of their axis. -/
theorem otherAxisIsInvalidAxis : Obligations.OtherAxisIsInvalidAxis := by
  rintro s axis rpm dir style count ⟨hidle, hinit⟩ h1 h2
  have hexec {i : Instr} {k : Axis → Verdict} (hv : verdictOf i s = needInit s (needAxis axis k)) :
      exec i s = .next (s.answered (0x03#8 ++ axis)) :=
    exec_of_raise (e := .invalidAxis) hidle
      (by rw [hv, needInit_of_initialized hinit, needAxis_of_none (axisOf_eq_none h1 h2)])
  exact ⟨hexec rfl, hexec rfl, hexec rfl, hexec rfl⟩

/-- Settles O16: the pin is checked before the value. -/
theorem badPinOrPinValue : Obligations.BadPinOrPinValue := by
  rintro s pin val ⟨hidle, hinit⟩
  refine ⟨fun hpin => exec_of_raise (e := .invalidPin) hidle ?_,
    fun hpin hval => exec_of_raise (e := .invalidPinValue) hidle ?_⟩
  · rw [verdictOf, needInit_of_initialized hinit, if_pos hpin]
  · rw [verdictOf, needInit_of_initialized hinit, if_neg (by omega), if_pos hval]

/-- Settles O17: INIT makes the check of the frequency alone, SET_FREQ after that of `initialized`; SET_SPEED checks the
speed after the axis. -/
theorem badFrequencyOrSpeed : Obligations.BadFrequencyOrSpeed := by
  refine ⟨fun s hz hidle hp => ?_, ?_, ?_⟩
  · exact exec_of_raise (i := .init hz) hidle (needPrescale_of_none hp _)
  · rintro s hz ⟨hidle, hinit⟩ hp
    exact exec_of_raise (i := .setFreq hz) hidle
      ((needInit_of_initialized hinit _).trans (needPrescale_of_none hp _))
  · rintro s axis ⟨hidle, hinit⟩ haxis
    obtain ⟨a, ha⟩ := exists_axisOf haxis
    exact exec_of_raise (i := .setSpeed axis 0) hidle
      ((needInit_of_initialized hinit _).trans ((needAxis_of_some ha _).trans (if_pos rfl)))

end Sys2Proof.Machine
end

section
/-! Responses (spec/60_exceptions.md R231, R246): every command ends with one, and its result byte is what R231 names. -/

namespace Sys2Proof.Machine

/-! ### A command in progress -/

theorem command_of_running {s : State} (h : s.position ≠ .idle) (v : Verdict) :
    command v s = .refused .commandOverlap := by
  cases hp : s.position with
  | idle => exact absurd hp h
  | running ops loop result => rw [command, hp]

/-- Settles O10: every command is handed over through `command`. -/
theorem overlappingCommandIsRefused : Obligations.OverlappingCommandIsRefused := by
  intro i s h
  rw [exec_eq_command, command_of_running h]

theorem runOps_keeps {α : Type} (g : State → α) {ops : List MicroOp}
    (hline : ∀ op ∈ ops, ∀ s, g (op.perform s).state = g s) (s : State) : g (runOps ops s).state = g s :=
  runOps_induct (R := fun x y => g y = g x) (fun _ => rfl) (fun h1 h2 => h2.trans h1) ops hline s

/-- What every line leaves unchanged, a run of lines and iterations leaves unchanged. -/
theorem run_keeps {α : Type} (g : State → α) (hline : ∀ (op : MicroOp) s, g (op.perform s).state = g s)
    (ops : List MicroOp) (loop : Option StepLoop) (s : State) :
    g ((runOps ops s).andThen (runLoop loop)).state = g s :=
  run_induct (R := fun x y => g y = g x) (fun _ => rfl) (fun h1 h2 => h2.trans h1) ops loop
    (fun op _ => hline op) (fun _ _ _ => runOps_keeps g (fun op _ => hline op) _) s

theorem run_commands (ops : List MicroOp) (loop : Option StepLoop) (s : State) :
    ((runOps ops s).andThen (runLoop loop)).state.commands = s.commands :=
  run_keeps State.commands (fun op s' => (perform_keeps op s').2.2.1) ops loop s

/-- Settles O9: the lines left neither respond nor take a command, and the response at their end leaves the block
idle. -/
theorem unfinishedCommandIsFinishedFirst : Obligations.UnfinishedCommandIsFinishedFirst := by
  intro s h
  cases hp : s.position with
  | idle => exact absurd hp h
  | running ops loop result =>
    obtain ⟨st, info, hclose, -⟩ := closeCommand_eq result ((runOps ops s).andThen (runLoop loop))
    rw [step_of_running h, finish_of_running hp, hclose]
    refine ⟨_, responseWord st info, rfl, respond_position _ st info, ?_, ?_⟩
    · rw [respond_commands, run_commands]
    · rw [respond_responses, run_responses]

/-! ### The result byte of an error of the checks -/

/-- The errors of a command's checks with their result bytes: the operand for an axis, a pin or a pin value, else 0. -/
inductive CheckResult : Instr → Status → Byte → Prop where
  | getStepper (axis : Byte) : CheckResult (.getStepper axis) .invalidAxis axis
  | setSpeed (axis : Byte) (rpm : Word16) : CheckResult (.setSpeed axis rpm) .invalidAxis axis
  | oneStep (axis : Byte) (dir : Direction) (style : Style) : CheckResult (.oneStep axis dir style) .invalidAxis axis
  | step (axis : Byte) (dir : Direction) (style : Style) (count : BitVec 32) :
      CheckResult (.step axis dir style count) .invalidAxis axis
  | pin (pin val : Byte) : CheckResult (.setPin pin val) .invalidPin pin
  | pinValue (pin val : Byte) : CheckResult (.setPin pin val) .invalidPinValue val
  | zero (i : Instr) {e : Status}
      (h : e = .invalidFrequency ∨ e = .illegalCommand ∨ e = .notInitialized ∨ e = .invalidSpeed) : CheckResult i e 0

theorem forall_mem_errorIf {P : Status × Byte → Prop} {c : Bool} {e : Status} {info : Byte}
    {next : Option (Status × Byte)} (h : P (e, info)) (hnext : ∀ x ∈ next, P x) : ∀ x ∈ errorIf c e info next, P x := by
  cases c with
  | true => rintro x ⟨⟩; exact h
  | false => exact hnext

theorem firstError_result (i : Instr) (s : State) : ∀ x ∈ firstError i s, CheckResult i x.1 x.2 := by
  have hnone : ∀ x ∈ (none : Option (Status × Byte)), CheckResult i x.1 x.2 := by simp
  have hinit : CheckResult i .notInitialized 0 := .zero i (by decide)
  have hfreq : CheckResult i .invalidFrequency 0 := .zero i (by decide)
  refine forall_mem_errorIf (.zero i (by decide)) ?_
  cases i with
  | init hz => exact forall_mem_errorIf hfreq hnone
  | setFreq hz => exact forall_mem_errorIf hinit (forall_mem_errorIf hfreq hnone)
  | setChannel ch on off => exact forall_mem_errorIf hinit hnone
  | setAll on off => exact forall_mem_errorIf hinit hnone
  | setPin pin val =>
    exact forall_mem_errorIf hinit
      (forall_mem_errorIf (.pin pin val) (forall_mem_errorIf (.pinValue pin val) hnone))
  | getStepper axis => exact forall_mem_errorIf hinit (forall_mem_errorIf (.getStepper axis) hnone)
  | setSpeed axis rpm =>
    exact forall_mem_errorIf hinit
      (forall_mem_errorIf (.setSpeed axis rpm) (forall_mem_errorIf (.zero _ (by decide)) hnone))
  | oneStep axis dir style => exact forall_mem_errorIf hinit (forall_mem_errorIf (.oneStep axis dir style) hnone)
  | step axis dir style count => exact forall_mem_errorIf hinit (forall_mem_errorIf (.step axis dir style count) hnone)

/-! ### The result byte of a command that runs -/

theorem runOps_writeLines_phase (ws : List (DevReg × Byte)) (s : State) (a : Axis) :
    (runOps (writeLines ws) s).state.phase a = s.phase a := by
  refine runOps_keeps (·.phase a) (fun op hop s' => perform_phase (fun v hv => ?_) s') s
  obtain ⟨w, -, rfl⟩ := List.mem_map.mp hop
  cases hv

/-- Whatever the bus answers, the phase is the new one when the lines of a step have run (R186). -/
theorem runOps_oneStepOps_phase (a : Axis) (dir : Direction) (style : Style) (s : State) :
    (runOps (oneStepOps a dir style s) s).state.phase a = nextPhase dir style (s.phase a) := by
  rw [oneStepOps_eq_writeLines, List.singleton_append, runOps_cons_done _ rfl, runOps_writeLines_phase,
    setPhase_phase_same]

/-- How a command ends in state `t` after events `es`: its status and result byte, case by case (R231). -/
inductive CommandResult (i : Instr) (t : State) : List Event → Status → Byte → Prop where
  | oneStep {axis : Byte} {dir : Direction} {style : Style} {a : Axis} (es : List Event)
      (hi : i = .oneStep axis dir style) (ha : axisOf axis = some a) :
      CommandResult i t es .ok ((t.phase a).setWidth 8)
  | ok (es : List Event) (hi : ∀ axis dir style, i ≠ .oneStep axis dir style) : CommandResult i t es .ok 0
  | busError (es : List Event) {e : Event} (h : e.isFailed = true) :
      CommandResult i t (es ++ [e]) .busError e.offset
  | check {e : Status} {info : Byte} (h : CheckResult i e info) : CommandResult i t [] e info

theorem runOps_of_done {ops : List MicroOp} {s u : State}
    (h : (runOps ops s).andThen (runLoop none) = .done u) : runOps ops s = .done u := by
  cases hr : runOps ops s with
  | done v => rw [hr] at h; exact h
  | failed v reg => rw [hr] at h; cases h

theorem runs_result {s u : State} {i : Instr} {ops : List MicroOp} {loop : Option StepLoop} {result : Byte}
    (hr : Runs s i ops loop result) (hu : (runOps ops s).andThen (runLoop loop) = .done u) (es : List Event) :
    CommandResult i (respond .ok result u) es .ok result := by
  cases hr with
  | @oneStep axis a dir style hi ha =>
    have hphase := runOps_oneStepOps_phase a dir style s
    rw [runOps_of_done hu, OpResult.state] at hphase
    rw [← hphase, ← respond_phase u .ok (BitVec.setWidth 8 (u.phase a))]
    exact .oneStep es rfl ha
  | _ => exact .ok es (by simp)

/-- A command taken in an idle block ends with one response, whose status and result byte are R231's. -/
theorem exec_result (i : Instr) {s : State} (hidle : s.position = .idle) :
    ∃ t st info es, exec i s = .next t ∧ t.position = .idle ∧ t.responses = s.responses ++ [responseWord st info] ∧
      t.trace = s.trace ++ es ∧ CommandResult i t es st info := by
  rw [exec_of_idle hidle]
  obtain ⟨e, info, hv, -⟩ | ⟨ops, loop, result, hv, hruns⟩ := verdictOf_cases i s
  · have hcheck := firstError_result i s (e, info) (by rw [← verdictOf_error, hv]; rfl)
    rw [hv]
    exact ⟨_, e, info, [], rfl, rfl, rfl, (List.append_nil _).symm, .check hcheck⟩
  rw [hv, carryOut_run]
  have htraced := run_traced ops loop s
  have hresp := run_responses ops loop s
  cases hr : (runOps ops s).andThen (runLoop loop) with
  | done u =>
    rw [hr] at htraced hresp
    obtain ⟨es, htrace, -⟩ := htraced
    exact ⟨_, .ok, result, es, rfl, rfl, congrArg (· ++ _) hresp, htrace, runs_result hruns hr es⟩
  | failed u reg =>
    rw [hr] at htraced hresp
    obtain ⟨es, e, htrace, -, hfailed, rfl⟩ := htraced
    exact ⟨_, .busError, e.offset, es ++ [e], rfl, rfl, congrArg (· ++ _) hresp, htrace, .busError es hfailed⟩

/-- Settles O18: an illegal word is answered at once, and a command by its checks or at its end. -/
theorem everyCommandEndsWithOneResponse : Obligations.EveryCommandEndsWithOneResponse := by
  refine ⟨fun s w rest hidle hc hw => ?_, fun i s hidle => ?_⟩
  · exact ⟨_, _, step_of_illegalByRule hidle hc hw, hidle, rfl, rfl, rfl, rfl⟩
  obtain ⟨t, st, info, es, hexec, hpos, hresp, htrace, hresult⟩ := exec_result i hidle
  refine ⟨t, _, es, hexec, hpos, hresp, htrace, ?_⟩
  rw [statusField_responseWord, resultField_responseWord]
  cases hresult with
  | oneStep _ hi ha => exact .inl ⟨rfl, .inl ⟨_, _, _, _, hi, ha, rfl⟩⟩
  | ok _ hi => exact .inl ⟨rfl, .inr ⟨hi, rfl⟩⟩
  | busError es h => exact .inr (.inl ⟨rfl, _, List.getLast?_concat, h, rfl⟩)
  | check h =>
    refine .inr (.inr ?_)
    cases h with
    | getStepper => exact .inl ⟨rfl, .inl ⟨_, rfl, rfl⟩⟩
    | setSpeed => exact .inl ⟨rfl, .inr (.inl ⟨_, _, rfl, rfl⟩)⟩
    | oneStep => exact .inl ⟨rfl, .inr (.inr (.inl ⟨_, _, _, rfl, rfl⟩))⟩
    | step => exact .inl ⟨rfl, .inr (.inr (.inr ⟨_, _, _, _, rfl, rfl⟩))⟩
    | pin => exact .inr (.inl ⟨rfl, _, _, rfl, rfl⟩)
    | pinValue => exact .inr (.inr (.inl ⟨rfl, _, _, rfl, rfl⟩))
    | zero _ h =>
      refine .inr (.inr (.inr ⟨?_, rfl⟩))
      obtain rfl | rfl | rfl | rfl := h <;> decide

end Sys2Proof.Machine
end

section
/-! The numbers of writes, reads and waits of a completed command (spec/70_reset_and_hazards.md R278): each line adds its
own to the trace when it is done, so a command that ends OK adds those of its lines and iterations. -/

namespace Sys2Proof.Machine

/-! ### What lines add to the trace -/

/-- The (writes, reads, waits) of a line that is done. -/
def MicroOp.counts : MicroOp → Nat × Nat × Nat
  | .write _ _ => (1, 0, 0)
  | .readMode1 => (0, 1, 0)
  | .wait _ => (0, 0, 1)
  | .setInitialized _ | .setFreq _ _ | .setRpm _ _ | .setPhase _ _ => 0

/-- The (writes, reads, waits) of lines that are all done. -/
def lineCounts (ops : List MicroOp) : Nat × Nat × Nat := (ops.map MicroOp.counts).sum

/-- The (writes, reads, waits) of the iterations a command has still to start: 16 writes each (R184, R193). -/
def loopCounts : Option StepLoop → Nat × Nat × Nat
  | none => 0
  | some l => (16 * l.left, 0, 0)

/-- The trace of `u` is that of `s` with this many writes, reads and waits more. -/
def Adds (s u : State) (n : Nat × Nat × Nat) : Prop := ∃ es, u.trace = s.trace ++ es ∧ countEvents es = n

theorem countEvents_append (xs ys : List Event) : countEvents (xs ++ ys) = countEvents xs + countEvents ys := by
  simp [countEvents]

theorem lineCounts_append (xs ys : List MicroOp) : lineCounts (xs ++ ys) = lineCounts xs + lineCounts ys := by
  simp [lineCounts]

theorem lineCounts_cons (op : MicroOp) (ops : List MicroOp) :
    lineCounts (op :: ops) = op.counts + lineCounts ops := by
  simp [lineCounts]

theorem Adds.of_trace_eq {s u : State} (h : u.trace = s.trace) : Adds s u 0 := ⟨[], by simp [h], rfl⟩

theorem Adds.trans {s t u : State} {m n : Nat × Nat × Nat} (hst : Adds s t m) (htu : Adds t u n) :
    Adds s u (m + n) := by
  obtain ⟨xs, hxs, rfl⟩ := hst
  obtain ⟨ys, hys, rfl⟩ := htu
  exact ⟨xs ++ ys, by rw [hys, hxs, List.append_assoc], countEvents_append xs ys⟩

theorem Adds.countEvents_eq {s u : State} {n : Nat × Nat × Nat} {es : List Event} (h : Adds s u n)
    (hes : u.trace = s.trace ++ es) : countEvents es = n := by
  obtain ⟨es', htrace, hcount⟩ := h
  rwa [List.append_cancel_left (hes.symm.trans htrace)]

theorem andThen_eq_done {r : OpResult} {f : State → OpResult} {u : State} (h : r.andThen f = .done u) :
    ∃ t, r = .done t ∧ f t = .done u := by
  cases r with
  | done t => exact ⟨t, rfl, h⟩
  | failed t reg => cases h

theorem perform_adds {op : MicroOp} {s u : State} (h : op.perform s = .done u) : Adds s u op.counts := by
  cases op with
  | write reg src =>
    obtain ⟨-, hp⟩ | ⟨-, hp⟩ := perform_write_cases reg src s <;> rw [hp] at h <;> cases h
    exact ⟨[_], rfl, rfl⟩
  | readMode1 =>
    obtain ⟨-, b, hp⟩ | ⟨-, hp⟩ := perform_readMode1_cases s <;> rw [hp] at h <;> cases h
    exact ⟨[_], rfl, rfl⟩
  | wait ms => cases h; exact ⟨[_], rfl, rfl⟩
  | setInitialized v => cases h; exact .of_trace_eq rfl
  | setFreq hz p => cases h; exact .of_trace_eq rfl
  | setRpm a v => cases h; exact .of_trace_eq (setRpm_trace s a v)
  | setPhase a v => cases h; exact .of_trace_eq (setPhase_trace s a v)

theorem runOps_adds {ops : List MicroOp} {s u : State} (h : runOps ops s = .done u) : Adds s u (lineCounts ops) := by
  induction ops generalizing s with
  | nil => cases h; exact .of_trace_eq rfl
  | cons op ops ih =>
    obtain ⟨t, hop, hops⟩ := andThen_eq_done h
    exact (perform_adds hop).trans (ih hops)

/-! ### The counts of the shared sequences -/

theorem lineCounts_initSeq (p : Params) : lineCounts (initSeq p) = (7, 1, 2) := rfl

theorem lineCounts_freqSeq (p : Params) (hz : Word16) (pre : Byte) : lineCounts (freqSeq p hz pre) = (4, 1, 1) := rfl

theorem lineCounts_writePin (pin : Channel) (v : Bool) : lineCounts (writePin pin v) = (4, 0, 0) := by
  cases v <;> rfl

theorem lineCounts_coilWrite (pins : PinMap) (n : Phase) : lineCounts (coilWrite pins n) = (16, 0, 0) := by
  simp only [coilWrite, lineCounts_append, lineCounts_writePin]
  rfl

theorem lineCounts_oneStepOps (a : Axis) (dir : Direction) (style : Style) (s : State) :
    lineCounts (oneStepOps a dir style s) = (16, 0, 0) :=
  (lineCounts_cons _ _).trans ((zero_add _).trans (lineCounts_coilWrite _ _))

theorem repeatSteps_adds {a : Axis} {dir : Direction} {style : Style} {n : Nat} {s u : State}
    (h : repeatSteps a dir style n s = .done u) : Adds s u (16 * n, 0, 0) := by
  induction n generalizing s with
  | zero => cases h; exact .of_trace_eq rfl
  | succ n ih =>
    obtain ⟨t, hbody, hrest⟩ := andThen_eq_done h
    have hfirst := lineCounts_oneStepOps a dir style s ▸ runOps_adds hbody
    rw [Nat.mul_succ, Nat.add_comm]
    exact hfirst.trans (ih hrest)

theorem runLoop_adds {loop : Option StepLoop} {s u : State} (h : runLoop loop s = .done u) :
    Adds s u (loopCounts loop) := by
  cases loop with
  | none => cases h; exact .of_trace_eq rfl
  | some l => exact repeatSteps_adds h

/-! ### The counts of a command -/

/-- What a command runs has the counts of R278's row. -/
theorem runs_counts {s : State} {i : Instr} {ops : List MicroOp} {loop : Option StepLoop} {result : Byte}
    (h : Runs s i ops loop result) : lineCounts ops + loopCounts loop = transactionCounts i := by
  cases h with
  | init =>
    rw [List.cons_append, List.cons_append, lineCounts_cons, lineCounts_append, lineCounts_append, lineCounts_initSeq,
      lineCounts_freqSeq]
    rfl
  | setFreq => rfl
  | setChannel => rfl
  | setAll => rfl
  | setPin => exact lineCounts_writePin _ _
  | getStepper => rfl
  | setSpeed =>
    rw [List.cons_append, lineCounts_cons, lineCounts_append, lineCounts_writePin, lineCounts_writePin]
    rfl
  | oneStep => exact lineCounts_oneStepOps _ _ _ _
  | step => exact zero_add _

theorem code_eq_ok_iff (st : Status) : st.code = 0x00 ↔ st = .ok := by cases st <;> decide

theorem responseWord_of_responses {s u : State} {st : Status} {info : Byte} {r : Word16}
    (hu : u.responses = s.responses) (h : (respond st info u).responses = s.responses ++ [r]) :
    r = responseWord st info := by
  rw [respond_responses, hu] at h
  exact (List.singleton_inj.mp (List.append_cancel_left h)).symm

/-- A command answered OK has passed its checks, and all that it runs is done. -/
theorem exec_done_of_ok {i : Instr} {s t : State} {r : Word16} (h : exec i s = .next t)
    (hr : t.responses = s.responses ++ [r]) (hok : statusField r = 0x00) :
    ∃ ops loop result u, Runs s i ops loop result ∧ (runOps ops s).andThen (runLoop loop) = .done u ∧
      t = respond .ok result u := by
  obtain ⟨-, ⟨e, info, he, -, rfl⟩ | ⟨ops, loop, result, hruns, rfl⟩⟩ := exec_cases h
  · rw [responseWord_of_responses rfl hr, statusField_responseWord, code_eq_ok_iff] at hok
    exact absurd hok he
  have hresp := run_responses ops loop s
  cases hrun : (runOps ops s).andThen (runLoop loop) with
  | done u => exact ⟨ops, loop, result, u, hruns, hrun, rfl⟩
  | failed u reg =>
    rw [hrun] at hr hresp
    rw [responseWord_of_responses hresp hr, statusField_responseWord, code_eq_ok_iff] at hok
    cases hok

/-- Settles O37: all lines and iterations of the command are done, and theirs are the counts of its row. -/
theorem transactionCountsOfCompletedCommands : Obligations.TransactionCountsOfCompletedCommands := by
  intro i s t es r h htrace hr hok
  obtain ⟨ops, loop, result, u, hruns, hrun, rfl⟩ := exec_done_of_ok h hr hok
  obtain ⟨v, hops, hloop⟩ := andThen_eq_done hrun
  have hadds : Adds s u (transactionCounts i) :=
    runs_counts hruns ▸ (runOps_adds hops).trans (runLoop_adds hloop)
  exact hadds.countEvents_eq htrace

end Sys2Proof.Machine
end

section
/-! Reset and waiting (spec/70_reset_and_hazards.md R260, R261). -/

namespace Sys2Proof.Machine

/-- Settles O8: it is the case of `step` for a host without a command. -/
theorem idleBlockWaitsForACommand : Obligations.IdleBlockWaitsForACommand := fun _ => step_waits

/-- Settles O11: each field by the definitions of the reset state and of the reset event. -/
theorem resetStateAndResetEvent : Obligations.ResetStateAndResetEvent :=
  ⟨fun _ => ⟨rfl, rfl, rfl⟩, fun _ => ⟨rfl, rfl, rfl, rfl, rfl, rfl⟩⟩

end Sys2Proof.Machine
end
